-- ==== Sys2Proof/Word.lean ====
section
/-! DEFINITION. The word types of the core and the Sample, a pair of two signed 16-bit components (20_memory.md R43). -/

namespace Sys2Proof

/-- An 8-bit element of `OUTB`, `JOBB`, `PREROM` and `HBROM` (20_memory.md R42). -/
abbrev Byte := BitVec 8

/-- A 36-bit operation word (30_encoding.md R58). -/
abbrev OpWord := BitVec 36

/-- The 32-bit operand of an operation word (30_encoding.md R58). -/
abbrev Arg := BitVec 32

/-- A Sample: "an ordered pair of signed 16-bit values (I, Q)" (20_memory.md R43), each component in two's complement. -/
structure Sample where
  i : BitVec 16
  q : BitVec 16
  deriving DecidableEq, Repr

end Sys2Proof
end

