-- ==== Sys2Proof/Syntax.lean ====
section
/-! DEFINITION. The operations of the core, one constructor per row of spec/opcode_table.json (30_encoding.md R59). -/

namespace Sys2Proof

/-- The seven operations. The operands are those of R61: a sample word's two components, and one byte. Each operand type
holds exactly the values the encoding admits, so every term is an instruction the core has. -/
inductive Instr where
  /-- `RESET` (70_reset_and_hazards.md R141) -/
  | reset
  /-- `RXBEGIN` (43_preamble.md R99) -/
  | rxbegin
  /-- `RXSAMPLE i, q` (42_decoder.md R83) -/
  | rxsample (i q : BitVec 16)
  /-- `RXEND` (45_orchestrator.md R113) -/
  | rxend
  /-- `TXJOB` (44_tx_encoder.md R102) -/
  | txjob
  /-- `PFEED b` (43_preamble.md R98) -/
  | pfeed (b : Byte)
  /-- `STOPREQ` (45_orchestrator.md R117) -/
  | stopreq
  deriving DecidableEq, Repr

end Sys2Proof
end

