-- ==== Sys2Proof/Decode.lean ====
section
/-! DEFINITION. Decoding of a 36-bit operation word (30_encoding.md R58 to R62), total, an illegal word refused by name, and
after it the encoder, written from the same tables. -/

namespace Sys2Proof

/-- Why a word is illegal (R60): a reserved `OPC`, or a nonzero bit in a must-be-0 field. -/
inductive DecodeError where
  | reservedOpc
  | nonzeroMustBeZero
  deriving DecidableEq, Repr

/-- `OPC = OPW[35:32]` (R58). -/
def opcOf (w : OpWord) : BitVec 4 := w.extractLsb' 32 4

/-- `ARG = OPW[31:0]` (R58). -/
def argOf (w : OpWord) : Arg := w.extractLsb' 0 32

/-- An operation that takes no operand: `ARG` "must be 0" (R59). -/
def decodeNoOperand (arg : Arg) (i : Instr) : Except DecodeError Instr :=
  if arg = 0 then .ok i else .error .nonzeroMustBeZero

/-- `RXSAMPLE`: `I = SW[15:0]`, `Q = SW[31:16]` (R62); every `ARG` is a sample word. -/
def decodeRxsample (arg : Arg) : Except DecodeError Instr :=
  .ok (.rxsample (arg.extractLsb' 0 16) (arg.extractLsb' 16 16))

/-- `PFEED`: the byte is `ARG[7:0]`, and `ARG[31:8]` must be 0 (R59, R61). -/
def decodePfeed (arg : Arg) : Except DecodeError Instr :=
  if arg.extractLsb' 8 24 = 0 then .ok (.pfeed (arg.extractLsb' 0 8)) else .error .nonzeroMustBeZero

/-- "A decoder is total: every 36-bit word is either one legal operation or illegal" (R60), by the table of R59. -/
def decode (w : OpWord) : Except DecodeError Instr :=
  match (opcOf w).toNat with
  | 0x0 => decodeNoOperand (argOf w) .reset
  | 0x1 => decodeNoOperand (argOf w) .rxbegin
  | 0x2 => decodeRxsample (argOf w)
  | 0x3 => decodeNoOperand (argOf w) .rxend
  | 0x4 => decodeNoOperand (argOf w) .txjob
  | 0x5 => decodePfeed (argOf w)
  | 0x6 => decodeNoOperand (argOf w) .stopreq
  | _ => .error .reservedOpc

/-- The word of `OPC` and `ARG` (R58). -/
def opWord (opc : BitVec 4) (arg : Arg) : OpWord := opc ++ arg

/-- The word of an instruction (R59, R61, R62). -/
def encode : Instr → OpWord
  | .reset => opWord 0x0 0
  | .rxbegin => opWord 0x1 0
  | .rxsample i q => opWord 0x2 (q ++ i)
  | .rxend => opWord 0x3 0
  | .txjob => opWord 0x4 0
  | .pfeed b => opWord 0x5 ((0 : BitVec 24) ++ b)
  | .stopreq => opWord 0x6 0

/-- The instruction the decoder reads from a word numbered as spec/opcode_table.json numbers it. The table's words have 36
bits (R58), a number of five bytes with its top four bits 0; a number above them is no operation word. -/
def decodeTableWord (nbits w : Nat) : Option Instr :=
  if w % 2 ^ nbits < 2 ^ 36 then
    match decode (BitVec.ofNat 36 (w % 2 ^ nbits)) with
    | .ok i => some i
    | .error _ => none
  else none

end Sys2Proof
end

