-- ==== Sys2Proof/Config.lean ====
section
/-! DEFINITION. The configuration record (00_scope.md R6), the constants the source fixes, and the free values. -/

namespace Sys2Proof

/-- What makes a decode cycle idle for the heartbeat: `HB_IDLE_RULE` (45_orchestrator.md R114, conflict C2). -/
inductive HbIdleRule where
  | decoded
  | reported
  deriving DecidableEq, Repr

/-- What a sizing violation does beside `TX_RESULT = SIZE`: `TX_SIZE_POLICY` (44_tx_encoder.md R106, conflict C5). -/
inductive TxSizePolicy where
  | rejectContinue
  | fatal
  deriving DecidableEq, Repr

/-- The configuration record of 00_scope.md R6: every parameter the source leaves OPEN, and `SAMPLES_PER_BIT`, which a
model refuses at any value but 1 (R11). The parameters the source or the spec fixes are constants below. -/
structure Config where
  /-- `HDR_NORMAL` -/
  hdrNormal : BitVec 12
  /-- `HDR_INVERTED` -/
  hdrInverted : BitVec 12
  /-- `PREAMBLE[0..PRE_LEN-1]` -/
  preamble : Vector Byte 2
  /-- `AMP_SHIFT` -/
  ampShift : Nat
  /-- `RX_BUF_LEN` -/
  rxBufLen : Nat
  /-- `RX_OUT_CAP` -/
  rxOutCap : Nat
  /-- `TX_BUF_LEN` -/
  txBufLen : Nat
  /-- `TX_MAX_BYTES` -/
  txMaxBytes : Nat
  /-- `GUARD_LEN` -/
  guardLen : Nat
  /-- `SYM_MAG` -/
  symMag : Nat
  /-- `GUARD_HIGH` -/
  guardHigh : Nat
  /-- `IDLE_LOW` -/
  idleLow : Int
  /-- `SAMPLES_PER_BIT` -/
  samplesPerBit : Nat
  /-- `HB_ENABLE` -/
  hbEnable : Bool
  /-- `HB_IDLE_LIMIT` -/
  hbIdleLimit : Nat
  /-- `HB_BYTES[0..3]` -/
  hbBytes : Vector Byte 4
  /-- `HB_IDLE_RULE` -/
  hbIdleRule : HbIdleRule
  /-- `HOST_NONBLOCK` -/
  hostNonblock : Bool
  /-- `TX_SIZE_POLICY` -/
  txSizePolicy : TxSizePolicy
  deriving DecidableEq, Repr

/-- `PRE_LEN`, 2 (R9). -/
def Config.preLen : Nat := 2

/-- `TX_REPEAT`, 3 (R10). -/
def Config.txRepeat : Nat := 3

/-- `PREROM`, which holds `PREAMBLE` at all times (20_memory.md R52). -/
def Config.preRom (c : Config) : List Byte := c.preamble.toList

/-- `HBROM`, which holds `HB_BYTES` at all times (20_memory.md R52). -/
def Config.hbRom (c : Config) : List Byte := c.hbBytes.toList

/-- The example parameters of 95_test_vectors.md section 1, "the spec's own"; `State.reset` carries them because it must
carry some record (DESIGN CHOICE, log entry 1). No meaning reads a parameter from anywhere but `State.cfg`. -/
def Config.specExample : Config where
  hdrNormal := 0xA5C
  hdrInverted := 0x5A3
  preamble := #v[0xA1, 0xB2]
  ampShift := 4
  rxBufLen := 20
  rxOutCap := 8
  txBufLen := 130
  txMaxBytes := 4
  guardLen := 4
  symMag := 1000
  guardHigh := 1000
  idleLow := -1000
  samplesPerBit := 1
  hbEnable := true
  hbIdleLimit := 2
  hbBytes := #v[0xAA, 0x55, 0xAA, 0x55]
  hbIdleRule := .decoded
  hostNonblock := false
  txSizePolicy := .rejectContinue

/-- FREE VALUE: what `IDLE_CNT` holds after an idle cycle that would count past its 32 bits and is not the last before a
heartbeat. The spec gives the register 32 bits (10_state.md R37) and bounds `HB_IDLE_LIMIT` only from below (R6), and states
no result there (log entry 12). -/
opaque Config.freeIdleCount : Nat → BitVec 32

/-- FREE VALUE: the status port word of a count of 2^32 or more, which 10_state.md R39 does not state (log entry 13). -/
opaque Config.freeStatusWord : Nat → BitVec 32

end Sys2Proof
end

