-- ==== Sys2Proof/Machine/State.lean ====
section
/-! DEFINITION. The state of the core as plain data: the registers of 10_state.md, the four buffers of 20_memory.md, and
beside them what the spec makes an argument of the step (10_state.md R19) and the host's interface holds in its state. -/

namespace Sys2Proof.Machine

/-- `DEC_MODE`, encoded 0 and 1 (00_scope.md R17, 10_state.md R20). -/
inductive DecMode where
  | searchingHeader
  | collectingByte
  deriving DecidableEq, Repr

/-- A polarity, encoded 0 and 1 (00_scope.md R17, 10_state.md R21). -/
inductive Polarity where
  | normal
  | inverted
  deriving DecidableEq, Repr

/-- `TX_RESULT`, encoded 0, 1 and 2; 3 is never written (10_state.md R33). -/
inductive TxResult where
  | none
  | ok
  | size
  deriving DecidableEq, Repr

/-- `PHASE`, encoded 0 to 9; 10 to 15 are never written (10_state.md R34). -/
inductive Phase where
  | boot
  | acqRx
  | decode
  | report
  | hostRead
  | encode
  | submitTx
  | checkStop
  | shutdown
  | halted
  deriving DecidableEq, Repr

/-- `FAULT_CODE`, codes 0 to 6; 7 to 15 are never written (60_exceptions.md R124). -/
inductive FaultCode where
  | none
  | feConfig
  | feRx
  | feTx
  | txSize
  | seqErr
  | badOp
  deriving DecidableEq, Repr

/-- A space of 20_memory.md R42: the elements that hold a value, by index, indices strictly rising. An element not listed
holds no value (R52). For a space of bytes this is a list of `Host.Cell`. -/
abbrev Memory (α : Type) := List (Nat × α)

/-- The decode report (30_encoding.md R68). -/
structure Report where
  count : Nat
  bytes : List Byte
  found : Bool
  dropped : Bool
  genuine : Bool
  deriving DecidableEq, Repr

/-- What an environment agent answers to a request of the core (45_orchestrator.md R110, R121). -/
inductive Answer where
  /-- the Radio Front End's answer to `configure`, both directions: `ok` or `error` -/
  | configure (ok : Bool)
  /-- the Radio Front End's `ok` to `acquireReceiveBuffer`, with the samples -/
  | receiveBuffer (samples : List Sample)
  /-- the Radio Front End's `error` to `acquireReceiveBuffer` -/
  | receiveError
  /-- the Radio Front End's answer to `acquireTransmitBuffer` -/
  | transmitSlot (ok : Bool)
  /-- the Radio Front End's answer to `submitTransmitBuffer` -/
  | submit (ok : Bool)
  /-- the Radio Front End's `done` to `shutdown()` -/
  | shutdownDone
  /-- the Host's answer to the host read: its bytes and the shutdown-request bit -/
  | host (bytes : List Byte) (shutdown : Bool)
  deriving DecidableEq, Repr

/-- One input of the environment, taken by one step (log entry 2). -/
inductive Input where
  /-- an operation word issued from outside: direct drive, the Stop Source, RESET (30_encoding.md R58) -/
  | op (w : OpWord)
  /-- an agent's answer, which stays until the core makes the request it answers -/
  | answer (a : Answer)
  /-- nothing arrives during one step: a wait goes on, and a phase that waits for nothing takes its action -/
  | pass
  deriving DecidableEq, Repr

/-- What the core presents to its environment (`emit`, 00_scope.md R16; 45_orchestrator.md R113, R116, R119). -/
inductive Event where
  /-- `Report(…)` to the Host at RXEND -/
  | report (r : Report)
  /-- `Heartbeat(…)` to the Host -/
  | heartbeat (bytes : List Byte)
  /-- the transmit buffer, as the Front End accepts it at `submitTransmitBuffer` -/
  | submitted (buffer : Memory Sample)
  /-- the front end is released: `shutdown()` is done -/
  | released
  deriving DecidableEq, Repr

/-- The state of the core: every register and buffer the spec gives it, and nothing that 10_state.md R19 makes an argument of
the step. The comments give each register's name in the spec. -/
structure CoreState where
  /-- `DEC_MODE` -/
  decMode : DecMode
  /-- `DEC_POL` -/
  decPol : Polarity
  /-- `HDR_REG` -/
  hdrReg : BitVec 12
  /-- `BYTE_ACC` -/
  byteAcc : BitVec 8
  /-- `BIT_CNT` -/
  bitCnt : BitVec 4
  /-- `REF` -/
  ref : BitVec 32
  /-- `CYC_OPEN` -/
  cycOpen : Bool
  /-- `PRE_IDX` -/
  preIdx : BitVec 2
  /-- `PRE_FOUND` -/
  preFound : Bool
  /-- `OUT_COUNT` -/
  outCount : Nat
  /-- `OUT_OVF` -/
  outOvf : Bool
  /-- `TX_N` -/
  txN : Nat
  /-- `TX_RESULT` -/
  txResult : TxResult
  /-- `PHASE` -/
  phase : Phase
  /-- `SIDX` -/
  sidx : Nat
  /-- `STOP_FLAG` -/
  stopFlag : Bool
  /-- `IDLE_CNT` -/
  idleCnt : BitVec 32
  /-- `FAULT_CODE` -/
  faultCode : FaultCode
  /-- `FAULT_PHASE` -/
  faultPhase : Phase
  /-- `RXB` -/
  rxb : Memory Sample
  /-- `TXB` -/
  txb : Memory Sample
  /-- `OUTB` -/
  outb : Memory Byte
  /-- `JOBB` -/
  jobb : Memory Byte
  /-- the first part of the present phase is done: RXBEGIN of `DECODE`, the answer of `HOST_READ`, the slot of `ENCODE`
  (45_orchestrator.md R112, R115, R116; log entry 4) -/
  midPhase : Bool
  /-- how many free values have been drawn (log entry 12) -/
  freeCtr : Nat
  deriving DecidableEq, Repr

/-- The state of the core with what surrounds it, which the host's `step : State → …` can take from nowhere else: the arguments
of the step (10_state.md R19; log entries 1 and 2) and the record of what the core emitted. `stepOn` of Machine/Step.lean is
the step with the arguments as R19 has them. -/
structure State extends CoreState where
  /-- an argument of the step: the configuration record (00_scope.md R6), fixed for the run -/
  cfg : Config
  /-- the arguments of this step and the steps after it: the environment's inputs, the next one first (log entry 2) -/
  inputs : List Input
  /-- what the core has emitted, oldest first (log entry 3) -/
  events : List Event
  deriving DecidableEq, Repr

/-- The model's own stops, for states and accesses the spec's rules never reach (93_implementation_defined.md section 2).
Stopping there is SAFE: no claim about a next state follows. -/
inductive Fault where
  /-- An index outside a space (20_memory.md R44), raised by the memory primitives of Machine/Ops.lean. Safe. -/
  | indexOutOfRange
  /-- A read of an element that holds no value since reset (20_memory.md R52), raised by the memory primitives. Safe. -/
  | noValue
  /-- RXSAMPLE in `COLLECTING_BYTE` with `BIT_CNT` at 8 or more, which would write a value above 8 (30_encoding.md R69). Safe. -/
  | bitCntReserved
  deriving DecidableEq, Repr

/-- Why the model does not run something. Refusing is SAFE: it admits fewer runs than the environment could offer only
where the spec forbids the environment to offer them. -/
inductive Refusal where
  /-- An instruction with no meaning yet, raised by a stub arm of `exec`. Safe. No arm raises it now. -/
  | notModelled (mnemonic : String)
  /-- A configuration outside the ranges of R6, or `SAMPLES_PER_BIT` other than 1 (00_scope.md R11, R12), raised by `step`. Safe. -/
  | badConfig
  /-- A receive answer that does not fill all `RX_BUF_LEN` samples (45_orchestrator.md R121), raised in `ACQ_RX`. Safe. -/
  | shortReceiveBuffer
  /-- A host answer with more than `TX_MAX_BYTES` bytes (45_orchestrator.md R121), raised in `HOST_READ`. Safe. -/
  | hostAnswerTooLong
  /-- A Host that does not answer at once in `HOST_NONBLOCK` mode (45_orchestrator.md R121), raised in `HOST_READ`. Safe. -/
  | hostNotAtOnce
  /-- An answer to another request than the one the core waits on (60_exceptions.md R131), raised in a wait. Safe. -/
  | unrequestedAnswer
  deriving DecidableEq, Repr

/-- The core right after reset, whatever the arguments of its steps will be: the table of 10_state.md R41, and no value in any
buffer (20_memory.md R52). The last two fields are the model's own (log entries 4 and 12). -/
def CoreState.reset : CoreState where
  decMode := .searchingHeader
  decPol := .normal
  hdrReg := 0
  byteAcc := 0
  bitCnt := 0
  ref := 0
  cycOpen := false
  preIdx := 0
  preFound := false
  outCount := 0
  outOvf := false
  txN := 0
  txResult := .none
  phase := .boot
  sidx := 0
  stopFlag := false
  idleCnt := 0
  faultCode := .none
  faultPhase := .boot
  rxb := []
  txb := []
  outb := []
  jobb := []
  midPhase := false
  freeCtr := 0

/-- The core right after reset under configuration `c`, with no input yet and nothing emitted (log entries 2 and 3). -/
def State.resetWith (c : Config) : State where
  toCoreState := CoreState.reset
  cfg := c
  inputs := []
  events := []

/-- The machine right after reset, with the spec's example configuration (log entry 1). -/
def State.reset : State := State.resetWith Config.specExample

end Sys2Proof.Machine
end

