-- ==== Sys2Proof/Machine/Ops.lean ====
section
/-! DEFINITION. The shared operations: the memory primitives (00_scope.md R16, 20_memory.md), what an operation answers, and
fault entry (60_exceptions.md R123). There is no return from a fault (60_exceptions.md R130), so none stands beside it. -/

namespace Sys2Proof.Machine

/-! ### Spaces -/

/-- What an element that no write has reached since reset reads as: "no value" (20_memory.md R52). -/
def Memory.unlisted (α : Type) : Option α := none

/-- The value element `k` holds, if it holds one. -/
def Memory.load {α : Type} : Memory α → Nat → Option α
  | [], _ => Memory.unlisted α
  | (j, v) :: m, k => if k = j then some v else Memory.load m k

/-- The space with element `k` holding `v`, indices kept strictly rising. -/
def Memory.store {α : Type} : Memory α → Nat → α → Memory α
  | [], k, v => [(k, v)]
  | (j, u) :: m, k, v =>
    if k < j then (k, v) :: (j, u) :: m
    else if k = j then (k, v) :: m
    else (j, u) :: Memory.store m k v

/-- The canonical form: indices strictly rising. (No value is what an unlisted element reads as, so no entry equals it.) -/
def Memory.wf {α : Type} : Memory α → Bool
  | [] => true
  | (j, _) :: m => m.all (fun e => decide (j < e.1)) && Memory.wf m

/-- Every listed index is below the space's element count (20_memory.md R44). -/
def Memory.within {α : Type} (cap : Nat) (m : Memory α) : Bool := m.all (fun e => decide (e.1 < cap))

/-- `MemRead(space, k, 1)` of a space of `cap` elements (R16, R44, R52). -/
def memRead {α : Type} (cap : Nat) (m : Memory α) (k : Nat) : Except Fault α :=
  if k < cap then
    match m.load k with
    | some v => .ok v
    | none => .error .noValue
  else .error .indexOutOfRange

/-- `MemWrite(space, k, 1, v)` of a space of `cap` elements (R16, R44). -/
def memWrite {α : Type} (cap : Nat) (m : Memory α) (k : Nat) (v : α) : Except Fault (Memory α) :=
  if k < cap then .ok (m.store k v) else .error .indexOutOfRange

/-- `MemRead(space, k, n)`: the elements at indices k to k+n-1 (R16). -/
def memReadRange {α : Type} (cap : Nat) (m : Memory α) (k : Nat) : Nat → Except Fault (List α)
  | 0 => .ok []
  | n + 1 =>
    match memRead cap m k with
    | .error f => .error f
    | .ok v =>
      match memReadRange cap m (k + 1) n with
      | .error f => .error f
      | .ok vs => .ok (v :: vs)

/-- `MemWrite(space, k, n, v)` with the list of the n elements (R16). -/
def memWriteRange {α : Type} (cap : Nat) (m : Memory α) (k : Nat) : List α → Except Fault (Memory α)
  | [] => .ok m
  | v :: vs =>
    match memWrite cap m k v with
    | .error f => .error f
    | .ok m' => memWriteRange cap m' (k + 1) vs

/-- `MemRead` of a constant space, `PREROM` or `HBROM`, at index `k` (R42, R44). -/
def romRead (rom : List Byte) (k : Nat) : Except Fault Byte :=
  match rom[k]? with
  | some v => .ok v
  | none => .error .indexOutOfRange

/-! ### Named updates of the state -/

/-- `emit Port(v)` (R16). -/
def State.emit (s : State) (e : Event) : State := { s with events := s.events ++ [e] }

/-- `phase <- P` (R16): the phase's first part is still to come. -/
def State.goTo (s : State) (p : Phase) : State := { s with phase := p, midPhase := false }

/-- The state whose next inputs are `rest`. -/
def State.withInputs (s : State) (rest : List Input) : State := { s with inputs := rest }

/-- The state after a `pass` that comes first is taken; an answer that comes first stays (log entry 2). -/
def State.dropPass (s : State) : State :=
  match s.inputs with
  | .pass :: rest => s.withInputs rest
  | _ => s

/-! ### What an operation answers -/

/-- The answer of one operation: done; `raise Fault(code)`, with the state the fault finds; or a stop of the model. -/
inductive OpResult where
  | done (s : State)
  | raised (c : FaultCode) (s : State)
  | broken (f : Fault)
  deriving DecidableEq, Repr

/-- Fault entry (60_exceptions.md R123): the first code and its phase are kept, and every phase but `SHUTDOWN` and `HALTED`
goes to `SHUTDOWN`. It saves nothing else (R129). -/
def faultEntry (c : FaultCode) (s : State) : State :=
  let s1 := if s.faultCode = .none then { s with faultCode := c, faultPhase := s.phase } else s
  if s1.phase = .shutdown ∨ s1.phase = .halted then s1 else s1.goTo .shutdown

/-- One operation, and `after` it what its issuer does next unless a fault ended the operation (R123). -/
def issue (op : State → OpResult) (after : State → State) (s : State) : Host.Outcome State Fault Refusal :=
  match op s with
  | .done t => .next (after t)
  | .raised c t => .next (faultEntry c t)
  | .broken f => .fault f

/-- An operation driven from outside: ignored in `HALTED` (60_exceptions.md R125), else performed. -/
def perform (op : State → OpResult) (s : State) : Host.Outcome State Fault Refusal :=
  if s.phase = .halted then .next s else issue op id s

/-- An illegal operation word, outside `HALTED`, raises `Fault(BAD_OP)` and has no other effect (60_exceptions.md R126). -/
def illegalWord (s : State) : Host.Outcome State Fault Refusal :=
  perform (fun t => .raised .badOp t) s

/-- What the HOST_READ phase and the pseudo-operation `JOB` do with the job's bytes (30_encoding.md R71, 45_orchestrator.md
R115): `TX_N <- N; MemWrite(JOBB, 0, N, b)`. -/
def State.job (s : State) (bytes : List Byte) : Except Fault State :=
  match memWriteRange s.cfg.txMaxBytes s.jobb 0 bytes with
  | .error f => .error f
  | .ok m => .ok { s with txN := bytes.length, jobb := m }

end Sys2Proof.Machine
end

