-- ==== Sys2Proof/Machine/Operands.lean ====
section
/-! DEFINITION. The operand forms: the sample word and its bytes (30_encoding.md R62, 20_memory.md R47), the amplitude and its
half (41_symbol_codec.md R72, R74), the shift registers' input (20_memory.md R46), and the symbols the encoder writes
(41_symbol_codec.md R80, 30_encoding.md R64). -/

namespace Sys2Proof.Machine

/-- The sample word of a Sample: I in bits 15:0, Q in bits 31:16 (30_encoding.md R62). -/
def sampleWord (x : Sample) : BitVec 32 := x.q ++ x.i

/-- The Sample of a sample word (30_encoding.md R62). -/
def sampleOfWord (w : BitVec 32) : Sample := ⟨w.extractLsb' 0 16, w.extractLsb' 16 16⟩

/-- A Sample slot as 4 bytes, I in bytes 0 and 1, Q in bytes 2 and 3, each little-endian (20_memory.md R47). No operation
uses it: the core never sees a Sample as bytes. -/
def sampleBytes (x : Sample) : List Byte :=
  [x.i.extractLsb' 0 8, x.i.extractLsb' 8 8, x.q.extractLsb' 0 8, x.q.extractLsb' 8 8]

/-- `AMP(s) = I << AMP_SHIFT`, the exact integer (41_symbol_codec.md R72, R73). Q is ignored (R77). -/
def amp (c : Config) (x : Sample) : Int := x.i.toInt * 2 ^ c.ampShift

/-- `HALF(a) = tdiv(a, 2)`, rounded toward zero (41_symbol_codec.md R74, 00_scope.md R15). -/
def half (a : Int) : Int := a.tdiv 2

/-- `trunc_W((REG << 1) | bit)`: the new bit enters bit 0 (20_memory.md R46). -/
def shiftIn {n : Nat} (r : BitVec n) (b : Bool) : BitVec n := (r <<< 1) ||| BitVec.ofNat n b.toNat

/-- A Sample whose two components are the integer `v`. -/
def bothComponents (v : Int) : Sample := ⟨BitVec.ofInt 16 v, BitVec.ofInt 16 v⟩

/-- `ENCBIT(b)`: both components `SYM_MAG` for 1 and `-SYM_MAG` for 0 (41_symbol_codec.md R80). -/
def encBit (c : Config) (b : Bool) : Sample := bothComponents (if b then (c.symMag : Int) else -(c.symMag : Int))

/-- A guard symbol, `(GUARD_HIGH, GUARD_HIGH)` (30_encoding.md R64). -/
def guardSymbol (c : Config) : Sample := bothComponents c.guardHigh

/-- An idle symbol, `(IDLE_LOW, IDLE_LOW)` (30_encoding.md R64). -/
def idleSymbol (c : Config) : Sample := bothComponents c.idleLow

/-- The bits of a field, most significant first (20_memory.md R45). -/
def bitsMsbFirst {n : Nat} (v : BitVec n) : List Bool := (List.range n).map fun k => v.getLsbD (n - 1 - k)

end Sys2Proof.Machine
end

