-- ==== Sys2Proof/Machine/Flags.lean ====
section
/-! DEFINITION. The decisions: the differential bit (41_symbol_codec.md R76), the header match (42_decoder.md R84, R85), the
size check (44_tx_encoder.md R103) and the idle cycle (45_orchestrator.md R114). -/

namespace Sys2Proof.Machine

/-- `DECIDE(a, ref, pol)`: signed comparisons, and at equality both polarities give 1 (41_symbol_codec.md R76). -/
def decideBit (a ref : Int) : Polarity → Bool
  | .normal => decide (a ≥ ref)
  | .inverted => decide (a ≤ ref)

/-- The polarity a header register's value is recognised under, the normal constant compared first (42_decoder.md R84, R85). -/
def headerMatch (c : Config) (h : BitVec 12) : Option Polarity :=
  if h = c.hdrNormal then some .normal
  else if h = c.hdrInverted then some .inverted
  else none

/-- `U = GUARD_LEN + 20 * TX_REPEAT * N`, the slots a job of N bytes uses (44_tx_encoder.md R102). -/
def usedSlots (c : Config) (n : Nat) : Nat := c.guardLen + 20 * Config.txRepeat * n

/-- The size check of a job of N bytes (44_tx_encoder.md R103). -/
def jobFits (c : Config) (n : Nat) : Bool := decide (n ≤ c.txMaxBytes) && decide (usedSlots c n ≤ c.txBufLen)

/-- What makes the cycle idle under `HB_IDLE_RULE` (45_orchestrator.md R113, R114). -/
def idleCycle (s : State) : Bool :=
  match s.cfg.hbIdleRule with
  | .decoded => decide (s.outCount = 0)
  | .reported => !(s.preFound && decide (s.outCount > 0))

end Sys2Proof.Machine
end

