-- ==== Sys2Proof/Machine/Control.lean ====
section
/-! DEFINITION. The operations of the orchestrator and the reset: RXEND, STOPREQ (45_orchestrator.md) and RESET
(70_reset_and_hazards.md). -/

namespace Sys2Proof.Machine

/-- `IDLE_CNT + 1`, the idle cycles in a row with this one, and the state after it. The count is exact where it is
`HB_IDLE_LIMIT`, since the 32 bits hold what stands between cycles (10_state.md R37) and the limit resets the count, and where
it fits them; any other is free (log entry 12). -/
def countIdle (s : State) : Nat × State :=
  let n := s.idleCnt.toNat + 1
  if n = s.cfg.hbIdleLimit ∨ n < 2 ^ 32 then (n, s)
  else ((Config.freeIdleCount s.freeCtr).toNat, { s with freeCtr := s.freeCtr + 1 })

/-- The heartbeat counter at the end of a cycle (45_orchestrator.md R113, R114). -/
def heartbeat (s : State) : State :=
  if s.cfg.hbEnable then
    if idleCycle s then
      let (n, t) := countIdle s
      if n = s.cfg.hbIdleLimit then { t.emit (.heartbeat s.cfg.hbRom) with idleCnt := 0 }
      else { t with idleCnt := BitVec.ofNat 32 n }
    else { s with idleCnt := 0 }
  else s

/-- The decode report of a cycle whose output bytes are `bytes` (30_encoding.md R68). -/
def reportOf (s : State) (bytes : List Byte) : Report :=
  { count := s.outCount, bytes := bytes, found := s.preFound, dropped := s.outOvf, genuine := s.preFound }

/-- RXEND (45_orchestrator.md R113). -/
def opRxend (s : State) : OpResult :=
  if s.cycOpen then
    match memReadRange s.cfg.rxOutCap s.outb 0 s.outCount with
    | .error f => .broken f
    | .ok bytes => .done { heartbeat (s.emit (.report (reportOf s bytes))) with cycOpen := false }
  else .raised .seqErr s

/-- STOPREQ (45_orchestrator.md R117). -/
def opStopreq (s : State) : OpResult := .done { s with stopFlag := true }

/-- The registers and buffers of the core at their reset values (70_reset_and_hazards.md R141). The configuration, the
inputs, the events and the counter of free values are not the core's to reset (log entry 10). -/
def resetCore (s : State) : State :=
  { s with
    decMode := .searchingHeader, decPol := .normal, hdrReg := 0, byteAcc := 0, bitCnt := 0, ref := 0
    cycOpen := false, preIdx := 0, preFound := false, outCount := 0, outOvf := false
    txN := 0, txResult := .none
    phase := .boot, sidx := 0, stopFlag := false, idleCnt := 0
    faultCode := .none, faultPhase := .boot
    rxb := [], txb := [], outb := [], jobb := []
    midPhase := false }

/-- The meaning of RXEND. -/
def execRxend (s : State) : Host.Outcome State Fault Refusal := perform opRxend s

/-- The meaning of STOPREQ: legal in every phase, without effect in `HALTED` (45_orchestrator.md R117). -/
def execStopreq (s : State) : Host.Outcome State Fault Refusal := perform opStopreq s

/-- The meaning of RESET: legal in every phase, `HALTED` included (70_reset_and_hazards.md R141). -/
def execReset (s : State) : Host.Outcome State Fault Refusal := .next (resetCore s)

end Sys2Proof.Machine
end

