-- ==== Sys2Proof/Machine/Preamble.lean ====
section
/-! DEFINITION. The preamble matcher and the start of a decode cycle: PFEED_INTERNAL, PFEED and RXBEGIN (43_preamble.md). -/

namespace Sys2Proof.Machine

/-- `PFEED_INTERNAL(b)` (43_preamble.md R95 to R97). The found flag it returns is `preFound` of the state answered. -/
def pfeedInternal (b : Byte) (s : State) : Except Fault State :=
  if s.preFound then .ok s
  else
    match romRead s.cfg.preRom s.preIdx.toNat with
    | .error f => .error f
    | .ok p =>
      if b = p then
        .ok { s with preIdx := s.preIdx + 1, preFound := decide ((s.preIdx + 1).toNat = Config.preLen) }
      else .ok { s with preIdx := 0 }

/-- RXBEGIN (43_preamble.md R99). -/
def opRxbegin (s : State) : OpResult :=
  if s.cycOpen then .raised .seqErr s
  else .done { s with cycOpen := true, preIdx := 0, preFound := false, outCount := 0, outOvf := false }

/-- PFEED of a legal word (43_preamble.md R98); the check of `ARG[31:8]` is the decoder's (60_exceptions.md R126). -/
def opPfeed (b : Byte) (s : State) : OpResult :=
  if s.cycOpen then
    match pfeedInternal b s with
    | .error f => .broken f
    | .ok t => .done t
  else .raised .seqErr s

/-- The meaning of RXBEGIN. -/
def execRxbegin (s : State) : Host.Outcome State Fault Refusal := perform opRxbegin s

/-- The meaning of PFEED. -/
def execPfeed (b : Byte) (s : State) : Host.Outcome State Fault Refusal := perform (opPfeed b) s

end Sys2Proof.Machine
end

