-- ==== Sys2Proof/Machine/Receive.lean ====
section
/-! DEFINITION. The decoder: RXSAMPLE, with the header correlator and the byte assembler (42_decoder.md). -/

namespace Sys2Proof.Machine

/-- One bit in `SEARCHING_HEADER`: shift, then compare with the two constants (42_decoder.md R84). -/
def searchBit (b : Bool) (s : State) : State :=
  match headerMatch s.cfg (shiftIn s.hdrReg b) with
  | some p => { s with decMode := .collectingByte, decPol := p, hdrReg := 0, bitCnt := 0 }
  | none => { s with hdrReg := shiftIn s.hdrReg b }

/-- The completed byte goes to `OUTB`, or is dropped when `OUTB` is full (42_decoder.md R83, R87). -/
def storeByte (s : State) : Except Fault State :=
  if s.outCount < s.cfg.rxOutCap then
    match memWrite s.cfg.rxOutCap s.outb s.outCount s.byteAcc with
    | .error f => .error f
    | .ok m => .ok { s with outb := m, outCount := s.outCount + 1 }
  else .ok { s with outOvf := true }

/-- A completed byte: fed to the matcher, then stored or dropped, then back to `SEARCHING_HEADER` (42_decoder.md R86). -/
def completeByte (s : State) : OpResult :=
  match pfeedInternal s.byteAcc s with
  | .error f => .broken f
  | .ok t =>
    match storeByte t with
    | .error f => .broken f
    | .ok u => .done { u with decMode := .searchingHeader }

/-- One bit in `COLLECTING_BYTE` (42_decoder.md R86). `BIT_CNT` never goes above 8 (30_encoding.md R69). -/
def collectBit (b : Bool) (s : State) : OpResult :=
  if s.bitCnt.toNat < 8 then
    let t := { s with byteAcc := shiftIn s.byteAcc b, bitCnt := s.bitCnt + 1 }
    if t.bitCnt.toNat > 7 then completeByte t else .done t
  else .broken .bitCntReserved

/-- RXSAMPLE (42_decoder.md R83). The decision reads the reference the previous sample left; `REF` is rewritten in both
decoder states (R88). -/
def opRxsample (i q : BitVec 16) (s : State) : OpResult :=
  if s.cycOpen then
    let a := amp s.cfg ⟨i, q⟩
    let t := { s with ref := BitVec.ofInt 32 (half a) }
    match s.decMode with
    | .searchingHeader => .done (searchBit (decideBit a s.ref.toInt .normal) t)
    | .collectingByte => collectBit (decideBit a s.ref.toInt s.decPol) t
  else .raised .seqErr s

/-- The meaning of RXSAMPLE. -/
def execRxsample (i q : BitVec 16) (s : State) : Host.Outcome State Fault Refusal := perform (opRxsample i q) s

end Sys2Proof.Machine
end

