-- ==== Sys2Proof/Machine/Transmit.lean ====
section
/-! DEFINITION. The transmit encoder: TXJOB (44_tx_encoder.md). -/

namespace Sys2Proof.Machine

/-- The 20 symbols of one byte: 12 header bits, then 8 byte bits, most significant first (30_encoding.md R66). -/
def unitSymbols (c : Config) (b : Byte) : List Sample :=
  (bitsMsbFirst c.hdrNormal ++ bitsMsbFirst b).map (encBit c)

/-- One repetition: every byte in order (44_tx_encoder.md R104, R105). -/
def repetition (c : Config) (bytes : List Byte) : List Sample := (bytes.map (unitSymbols c)).flatten

/-- The samples TXJOB writes, from slot 0 to the last: guard, `TX_REPEAT` repetitions, idle (44_tx_encoder.md R102). -/
def frame (c : Config) (bytes : List Byte) : List Sample :=
  List.replicate c.guardLen (guardSymbol c)
    ++ (List.replicate Config.txRepeat (repetition c bytes)).flatten
    ++ List.replicate (c.txBufLen - usedSlots c bytes.length) (idleSymbol c)

/-- A job that fails the size check: `TX_RESULT <- SIZE`, and under `FATAL` the fault (44_tx_encoder.md R102, R106; log
entry 11). -/
def rejectJob (s : State) : OpResult :=
  match s.cfg.txSizePolicy with
  | .rejectContinue => .done { s with txResult := .size }
  | .fatal => .raised .txSize { s with txResult := .size }

/-- A job that fits: the whole of `TXB` is written (44_tx_encoder.md R102). -/
def encodeJob (s : State) : OpResult :=
  match memReadRange s.cfg.txMaxBytes s.jobb 0 s.txN with
  | .error f => .broken f
  | .ok bytes =>
    match memWriteRange s.cfg.txBufLen s.txb 0 (frame s.cfg bytes) with
    | .error f => .broken f
    | .ok m => .done { s with txb := m, txResult := .ok }

/-- TXJOB (44_tx_encoder.md R102, R103, R108). -/
def opTxjob (s : State) : OpResult :=
  if s.cycOpen then .raised .seqErr s
  else if jobFits s.cfg s.txN then encodeJob s
  else rejectJob s

/-- The meaning of TXJOB. -/
def execTxjob (s : State) : Host.Outcome State Fault Refusal := perform opTxjob s

end Sys2Proof.Machine
end

