-- ==== Sys2Proof/Machine/Dispatch.lean ====
section
/-! DEFINITION. One arm per operation (30_encoding.md R59). -/

namespace Sys2Proof.Machine

def exec (i : Instr) (s : State) : Host.Outcome State Fault Refusal :=
  match i with
  | .reset => Sys2Proof.Machine.execReset s
  | .rxbegin => Sys2Proof.Machine.execRxbegin s
  | .rxsample si sq => Sys2Proof.Machine.execRxsample si sq s
  | .rxend => Sys2Proof.Machine.execRxend s
  | .txjob => Sys2Proof.Machine.execTxjob s
  | .pfeed b => Sys2Proof.Machine.execPfeed b s
  | .stopreq => Sys2Proof.Machine.execStopreq s

end Sys2Proof.Machine
end

