-- ==== Sys2Proof/Machine/Orchestrator.lean ====
section
/-! DEFINITION. The cycle orchestrator's phase machine (45_orchestrator.md R110 to R120): what the core does at one step when
no operation word is driven from outside. One handshake answer, one issued operation or one phase change is one step (log
entry 4). -/

namespace Sys2Proof.Machine

/-- The requests of the core (45_orchestrator.md R110). -/
inductive Request where
  | configure
  | acquireReceive
  | hostRead
  | acquireTransmit
  | submitTransmit
  | shutdown
  deriving DecidableEq, Repr

/-- The request the core waits on, if it waits (45_orchestrator.md R110, R137). -/
def pendingRequest (s : State) : Option Request :=
  match s.phase with
  | .boot => some .configure
  | .acqRx => some .acquireReceive
  | .hostRead => if s.midPhase then none else some .hostRead
  | .encode => if s.midPhase then none else some .acquireTransmit
  | .submitTx => some .submitTransmit
  | .shutdown => some .shutdown
  | .decode => none
  | .report => none
  | .checkStop => none
  | .halted => none

/-- The phase after the host's answer (45_orchestrator.md R115). -/
def afterHostRead (s : State) : State := s.goTo (if s.txN > 0 then .encode else .checkStop)

/-- The phase after TXJOB (45_orchestrator.md R116). -/
def afterTxjob (s : State) : State := s.goTo (if s.txResult = .ok then .submitTx else .checkStop)

/-- `ACQ_RX` on ok: the samples fill `RXB` (45_orchestrator.md R112). -/
def takeReceiveBuffer (samples : List Sample) (s : State) : Host.Outcome State Fault Refusal :=
  if samples.length = s.cfg.rxBufLen then
    match memWriteRange s.cfg.rxBufLen s.rxb 0 samples with
    | .error f => .fault f
    | .ok m => .next ({ s with rxb := m }.goTo .decode)
  else .refused .shortReceiveBuffer

/-- `HOST_READ` on an answer (45_orchestrator.md R115). A shutdown request leaves the STOPREQ still to be issued. -/
def takeHostAnswer (bytes : List Byte) (shutdown : Bool) (s : State) : Host.Outcome State Fault Refusal :=
  if bytes.length ≤ s.cfg.txMaxBytes then
    match s.job bytes with
    | .error f => .fault f
    | .ok t => if shutdown then .next { t with midPhase := true } else .next (afterHostRead t)
  else .refused .hostAnswerTooLong

/-- The core waits on request `r` and the agent answers `a` (45_orchestrator.md R112, R115, R116, R119); an `error` enters the
fault of the phase (60_exceptions.md R124). -/
def takeAnswer (r : Request) (a : Answer) (s : State) : Host.Outcome State Fault Refusal :=
  match r, a with
  | .configure, .configure ok => .next (if ok then s.goTo .acqRx else faultEntry .feConfig s)
  | .acquireReceive, .receiveBuffer samples => takeReceiveBuffer samples s
  | .acquireReceive, .receiveError => .next (faultEntry .feRx s)
  | .hostRead, .host bytes shutdown => takeHostAnswer bytes shutdown s
  | .acquireTransmit, .transmitSlot ok => .next (if ok then { s with midPhase := true } else faultEntry .feTx s)
  | .submitTransmit, .submit ok =>
    .next (if ok then (s.emit (.submitted s.txb)).goTo .checkStop else faultEntry .feTx s)
  | .shutdown, .shutdownDone => .next ((s.emit .released).goTo .halted)
  | _, _ => .refused .unrequestedAnswer

/-- The core waits on request `r` and no answer comes at this step: it stays (45_orchestrator.md R110, 60_exceptions.md
R137). In `HOST_NONBLOCK` mode the Host must answer at once (45_orchestrator.md R115, R121). -/
def wait (r : Request) (s : State) : Host.Outcome State Fault Refusal :=
  if r = .hostRead ∧ s.cfg.hostNonblock = true then .refused .hostNotAtOnce else .next s

/-- One step of `DECODE`: RXBEGIN, then one RXSAMPLE, then the end of the pass (45_orchestrator.md R112). -/
def decodeStep (s : State) : Host.Outcome State Fault Refusal :=
  if s.midPhase then
    if s.sidx < s.cfg.rxBufLen then
      match memRead s.cfg.rxBufLen s.rxb s.sidx with
      | .error f => .fault f
      | .ok x => issue (opRxsample x.i x.q) (fun t => { t with sidx := t.sidx + 1 }) s
    else .next (s.goTo .report)
  else issue opRxbegin (fun t => { t with sidx := 0, midPhase := true }) s

/-- The action of a phase that waits for nothing (45_orchestrator.md R111); a phase that waits for an answer has none. -/
def phaseAction (s : State) : Host.Outcome State Fault Refusal :=
  match s.phase with
  | .boot => .next s
  | .acqRx => .next s
  | .decode => decodeStep s
  | .report => issue opRxend (fun t => t.goTo .hostRead) s
  | .hostRead => if s.midPhase then issue opStopreq afterHostRead s else .next s
  | .encode => if s.midPhase then issue opTxjob afterTxjob s else .next s
  | .submitTx => .next s
  | .checkStop => .next (s.goTo (if s.stopFlag then .shutdown else .acqRx))
  | .shutdown => .next s
  | .halted => .next s

/-- One step of the core when no operation word comes first: an answer the core waits for, a wait, or the phase's own
action. An answer stays among the inputs until the core makes the request (log entry 2). -/
def advance (s : State) : Host.Outcome State Fault Refusal :=
  match pendingRequest s, s.inputs with
  | some r, .answer a :: rest => takeAnswer r a (s.withInputs rest)
  | some r, _ => wait r s.dropPass
  | none, _ => phaseAction s.dropPass

end Sys2Proof.Machine
end

