-- ==== Sys2Proof/WellFormed.lean ====
section
/-! DEFINITION. Which configurations a model runs (00_scope.md R11, R12). An `Instr` needs no such check: its operand types
are exactly the widths of the encoding's fields (30_encoding.md R61). -/

namespace Sys2Proof

/-- "A configuration is well formed when every parameter lies in the range the table of rule R6 gives" (R12), and
`SAMPLES_PER_BIT` is 1 (R11). The parameters whose type is their range have no clause. -/
def Config.wf (c : Config) : Bool :=
  decide (c.ampShift ≤ 15) && decide (1 ≤ c.rxBufLen) && decide (1 ≤ c.rxOutCap) && decide (1 ≤ c.txBufLen) &&
  decide (1 ≤ c.txMaxBytes) && decide (1 ≤ c.symMag) && decide (c.symMag ≤ 32767) && decide (1 ≤ c.guardHigh) &&
  decide (c.guardHigh ≤ 32767) && decide (-32768 ≤ c.idleLow) && decide (c.idleLow ≤ -1) &&
  decide (c.samplesPerBit = 1) && decide (1 ≤ c.hbIdleLimit)

end Sys2Proof
end

