-- ==== Sys2Proof/Machine/Step.lean ====
section
/-! DEFINITION. One step of the machine: an operation word driven from outside runs, or the orchestrator advances. -/

namespace Sys2Proof.Machine

/-- One operation word: decoded and run, or illegal (30_encoding.md R60, 60_exceptions.md R126). -/
def runWord (w : OpWord) (s : State) : Host.Outcome State Fault Refusal :=
  match decode w with
  | .ok i => exec i s
  | .error _ => illegalWord s

/-- One step. An ill-formed configuration is refused (00_scope.md R11, R12). An operation word that is the next input runs,
whatever the phase (30_encoding.md R58); otherwise the phase machine advances (45_orchestrator.md R111). -/
def step (s : State) : Host.Outcome State Fault Refusal :=
  if s.cfg.wf then
    match s.inputs with
    | .op w :: rest => runWord w (s.withInputs rest)
    | _ => advance s
  else .refused .badConfig

/-! ### The step with its arguments (10_state.md R19) -/

/-- What a step does to the core and shows to its environment. -/
structure Turn where
  /-- the core's next state -/
  core : CoreState
  /-- whether the input was taken: an answer the core has not asked for yet is not -/
  taken : Bool
  /-- what the core emitted, oldest first -/
  emitted : List Event
  deriving DecidableEq, Repr

/-- The step as 10_state.md R19 has it: the configuration and the step's input (samples and host bytes come in an answer, a
stop request as an operation word) are arguments, and the state is the core's alone. -/
def stepOn (c : Config) (x : Input) (k : CoreState) : Host.Outcome Turn Fault Refusal :=
  match step { toCoreState := k, cfg := c, inputs := [x], events := [] } with
  | .next t => .next { core := t.toCoreState, taken := t.inputs.isEmpty, emitted := t.events }
  | .fault f => .fault f
  | .refused r => .refused r

/-! ### Placing an operation word -/

/-- The state whose next step runs the operation word `w`: the word is the next input (log entry 16). -/
def State.withFetchWord (s : State) (nbits w : Nat) : State :=
  s.withInputs (.op (BitVec.ofNat 36 (w % 2 ^ nbits)) :: s.inputs)

end Sys2Proof.Machine
end

