-- ==== Sys2Proof/Machine/Pseudo.lean ====
section
/-! DEFINITION. Direct drive of a list of operations (30_encoding.md R58), the pseudo-operations with their expansions (R71;
`JOB` is `State.job`), and the trace syntax (R70), written and read. -/

namespace Sys2Proof.Machine

/-- The operations of a trace, one after the other (30_encoding.md R58, R70). -/
def execList : List Instr → State → Host.Outcome State Fault Refusal
  | [], s => .next s
  | i :: is, s =>
    match exec i s with
    | .next t => execList is t
    | .fault f => .fault f
    | .refused r => .refused r

/-- `RXSAMPLE` of a Sample. -/
def rxOf (x : Sample) : Instr := .rxsample x.i x.q

/-- `RXBIT b`: the data symbol of b. -/
def rxBit (c : Config) (b : Bool) : Instr := rxOf (encBit c b)

/-- `RXBITN b`: the data symbol of 1-b. -/
def rxBitN (c : Config) (b : Bool) : Instr := rxBit c (!b)

/-- `RXHDR`: the 12 bits of `HDR_NORMAL`, most significant first. -/
def rxHdr (c : Config) : List Instr := (bitsMsbFirst c.hdrNormal).map (rxBit c)

/-- `RXHDRN`: the same, inverted. -/
def rxHdrN (c : Config) : List Instr := (bitsMsbFirst c.hdrNormal).map (rxBitN c)

/-- `RXBYTE v`: the 8 bits of v, most significant first. -/
def rxByte (c : Config) (v : Byte) : List Instr := (bitsMsbFirst v).map (rxBit c)

/-- `RXBYTEN v`: the same, inverted. -/
def rxByteN (c : Config) (v : Byte) : List Instr := (bitsMsbFirst v).map (rxBitN c)

/-- `RXPASS s[0..L-1]`: RXBEGIN, one RXSAMPLE per sample, RXEND. -/
def rxPass (samples : List Sample) : List Instr := .rxbegin :: (samples.map rxOf ++ [.rxend])

/-- One line of a trace: the mnemonic, then its operands, separated by commas (30_encoding.md R70). -/
def traceLine : Instr → String
  | .reset => "RESET"
  | .rxbegin => "RXBEGIN"
  | .rxsample i q => "RXSAMPLE " ++ toString i.toInt ++ ", " ++ toString q.toInt
  | .rxend => "RXEND"
  | .txjob => "TXJOB"
  | .pfeed b => "PFEED " ++ toString b.toNat
  | .stopreq => "STOPREQ"

/-! ### Reading a line of a trace (30_encoding.md R70) -/

/-- The blanks that may stand around a word of a line: a space, a tab, a carriage return. -/
def isBlank (c : Char) : Bool := c == ' ' || c == '\t' || c == '\r'

/-- A word without the blanks around it. -/
def trimBlanks (l : List Char) : List Char := ((l.dropWhile isBlank).reverse.dropWhile isBlank).reverse

/-- The words between commas. -/
def splitCommas : List Char → List (List Char)
  | [] => [[]]
  | c :: l =>
    match splitCommas l with
    | [] => [[c]]
    | w :: ws => if c = ',' then [] :: w :: ws else (c :: w) :: ws

/-- The value of a digit, up to `f`. -/
def digitValue (c : Char) : Option Nat :=
  if '0' ≤ c ∧ c ≤ '9' then some (c.toNat - '0'.toNat)
  else if 'a' ≤ c ∧ c ≤ 'f' then some (c.toNat - 'a'.toNat + 10)
  else if 'A' ≤ c ∧ c ≤ 'F' then some (c.toNat - 'A'.toNat + 10)
  else none

/-- The digits of a number in a base, most significant first, after the value `acc` of the digits before them. -/
def digitsValue (base acc : Nat) : List Char → Option Nat
  | [] => some acc
  | c :: l =>
    match digitValue c with
    | some d => if d < base then digitsValue base (acc * base + d) l else none
    | none => none

/-- An unsigned number, decimal, or hexadecimal with `0x`. -/
def readNat : List Char → Option Nat
  | [] => none
  | '0' :: 'x' :: c :: l => digitsValue 16 0 (c :: l)
  | c :: l => digitsValue 10 0 (c :: l)

/-- A number with an optional minus sign. -/
def readInt : List Char → Option Int
  | '-' :: l => (readNat l).map fun n => -(n : Int)
  | l => (readNat l).map fun n => (n : Int)

/-- A signed 16-bit component of `RXSAMPLE`. -/
def readComponent (l : List Char) : Option (BitVec 16) :=
  match readInt (trimBlanks l) with
  | some v => if -32768 ≤ v ∧ v ≤ 32767 then some (BitVec.ofInt 16 v) else none
  | none => none

/-- The byte of `PFEED`. -/
def readByte (l : List Char) : Option Byte :=
  match readNat (trimBlanks l) with
  | some v => if v < 256 then some (BitVec.ofNat 8 v) else none
  | none => none

/-- The operation of a mnemonic and the text of its operands. -/
def readOperation (mnemonic operands : List Char) : Option Instr :=
  match splitCommas operands with
  | [a, b] =>
    if mnemonic = ['R', 'X', 'S', 'A', 'M', 'P', 'L', 'E'] then
      match readComponent a, readComponent b with
      | some i, some q => some (.rxsample i q)
      | _, _ => none
    else none
  | [a] =>
    if mnemonic = ['P', 'F', 'E', 'E', 'D'] then (readByte a).map .pfeed
    else if trimBlanks a ≠ [] then none
    else if mnemonic = ['R', 'E', 'S', 'E', 'T'] then some .reset
    else if mnemonic = ['R', 'X', 'B', 'E', 'G', 'I', 'N'] then some .rxbegin
    else if mnemonic = ['R', 'X', 'E', 'N', 'D'] then some .rxend
    else if mnemonic = ['T', 'X', 'J', 'O', 'B'] then some .txjob
    else if mnemonic = ['S', 'T', 'O', 'P', 'R', 'E', 'Q'] then some .stopreq
    else none
  | _ => none

/-- The operation of one line of a trace, its characters given; "A `;` starts a comment" (30_encoding.md R70). A line with no
operation on it, or not of the syntax, gives none. -/
def readLine (line : List Char) : Option Instr :=
  let text := trimBlanks (line.takeWhile (· ≠ ';'))
  readOperation (text.takeWhile fun c => !isBlank c) (text.dropWhile fun c => !isBlank c)

end Sys2Proof.Machine
end

