-- ==== Sys2Proof/Machine/Status.lean ====
section
/-! DEFINITION. The read-only status port RD(n) (10_state.md R39): a function of the state between two operations (R40),
without side effect. -/

namespace Sys2Proof.Machine

/-- `DEC_MODE` as its bit (10_state.md R20). -/
def DecMode.bit : DecMode → Bool
  | .searchingHeader => false
  | .collectingByte => true

/-- A polarity as its bit (10_state.md R21). -/
def Polarity.bit : Polarity → Bool
  | .normal => false
  | .inverted => true

/-- `TX_RESULT` as its 2 bits (10_state.md R33). -/
def TxResult.code : TxResult → BitVec 2
  | .none => 0
  | .ok => 1
  | .size => 2

/-- `PHASE` as its 4 bits (10_state.md R34). -/
def Phase.code : Phase → BitVec 4
  | .boot => 0
  | .acqRx => 1
  | .decode => 2
  | .report => 3
  | .hostRead => 4
  | .encode => 5
  | .submitTx => 6
  | .checkStop => 7
  | .shutdown => 8
  | .halted => 9

/-- `FAULT_CODE` as its 4 bits (60_exceptions.md R124). -/
def FaultCode.code : FaultCode → BitVec 4
  | .none => 0
  | .feConfig => 1
  | .feRx => 2
  | .feTx => 3
  | .txSize => 4
  | .seqErr => 5
  | .badOp => 6

/-- The `STATUS` word, from bit 31 down to bit 0 (10_state.md R39). -/
def statusWord (s : State) : BitVec 32 :=
  (0 : BitVec 8) ++ s.phase.code ++ s.faultPhase.code ++ (0 : BitVec 2) ++ s.txResult.code ++ s.faultCode.code
    ++ (0 : BitVec 1) ++ BitVec.ofBool (decide (s.phase = .halted)) ++ BitVec.ofBool s.cycOpen
    ++ BitVec.ofBool s.stopFlag ++ BitVec.ofBool s.outOvf ++ BitVec.ofBool s.preFound
    ++ BitVec.ofBool s.decPol.bit ++ BitVec.ofBool s.decMode.bit

/-- A count as a 32-bit word; a count of 2^32 or more reads as a free value (log entry 13). -/
def countWord (n : Nat) : BitVec 32 := if n < 2 ^ 32 then BitVec.ofNat 32 n else Config.freeStatusWord n

/-- `RD(n)`: the map of 10_state.md R39; numbers 9 to 255 read 0. -/
def rd (n : BitVec 8) (s : State) : BitVec 32 :=
  match n.toNat with
  | 0 => statusWord s
  | 1 => (0 : BitVec 20) ++ s.hdrReg
  | 2 => (0 : BitVec 20) ++ s.bitCnt ++ s.byteAcc
  | 3 => s.ref
  | 4 => (0 : BitVec 30) ++ s.preIdx
  | 5 => countWord s.outCount
  | 6 => s.idleCnt
  | 7 => countWord s.sidx
  | 8 => countWord s.txN
  | _ => 0

end Sys2Proof.Machine
end

