-- ==== Sys2Proof/Safety.lean ====
section
/-! DEFINITION. What a safe run is: the invariant of the core's state that every step keeps, and the absence of the model's own
faults, which says that every index the core forms is in range (20_memory.md R44) and that no rule reads an element that
holds no value (20_memory.md R52). -/

namespace Sys2Proof.Machine

/-- Every element below `n` holds a value. -/
abbrev Memory.filled {α : Type} (m : Memory α) (n : Nat) : Prop := ∀ k, k < n → (Memory.load m k).isSome = true

/-- The invariant: the ranges 10_state.md gives the registers, the canonical form and range of the four buffers, and what the
phases promise. -/
structure Inv (s : State) : Prop where
  /-- the configuration is well formed (00_scope.md R12) -/
  cfgWf : s.cfg.wf = true
  /-- `RXB` is canonical and within its space (20_memory.md R42, R44) -/
  rxbForm : Memory.wf s.rxb = true ∧ Memory.within s.cfg.rxBufLen s.rxb = true
  /-- `TXB` is canonical and within its space -/
  txbForm : Memory.wf s.txb = true ∧ Memory.within s.cfg.txBufLen s.txb = true
  /-- `OUTB` is canonical and within its space -/
  outbForm : Memory.wf s.outb = true ∧ Memory.within s.cfg.rxOutCap s.outb = true
  /-- `JOBB` is canonical and within its space -/
  jobbForm : Memory.wf s.jobb = true ∧ Memory.within s.cfg.txMaxBytes s.jobb = true
  /-- `OUT_COUNT` is at most `RX_OUT_CAP`, and `OUTB` holds a value below it (10_state.md R29, 20_memory.md R52) -/
  outCount : s.outCount ≤ s.cfg.rxOutCap ∧ Memory.filled s.outb s.outCount
  /-- `TX_N` is at most `TX_MAX_BYTES`, and `JOBB` holds a value below it (10_state.md R32, 20_memory.md R52) -/
  txN : s.txN ≤ s.cfg.txMaxBytes ∧ Memory.filled s.jobb s.txN
  /-- `SIDX` is at most `RX_BUF_LEN` (10_state.md R35) -/
  sidx : s.sidx ≤ s.cfg.rxBufLen
  /-- `PRE_IDX` is at most `PRE_LEN`, and there exactly when `PRE_FOUND` is set (10_state.md R27, R28; 43_preamble.md R97) -/
  preIdx : s.preIdx.toNat ≤ Config.preLen ∧ (s.preFound = true ↔ s.preIdx.toNat = Config.preLen)
  /-- `BIT_CNT` is at most 8 (10_state.md R24) -/
  bitCnt : s.bitCnt.toNat ≤ 8
  /-- while a byte is collected, fewer than 8 bits are in and `HDR_REG` is 0 (42_decoder.md R84, R86, R89) -/
  collecting : s.decMode = .collectingByte → s.bitCnt.toNat ≤ 7 ∧ s.hdrReg = 0
  /-- `REF` is half an amplitude (41_symbol_codec.md R72, R74) -/
  ref : -(2 ^ 29) ≤ s.ref.toInt ∧ s.ref.toInt ≤ 2 ^ 29
  /-- `IDLE_CNT` is below `HB_IDLE_LIMIT` (10_state.md R37) -/
  idleCnt : s.idleCnt.toNat < s.cfg.hbIdleLimit
  /-- in `DECODE`, `RXB` is filled (20_memory.md R52, R54) -/
  rxbFilled : s.phase = .decode → Memory.filled s.rxb s.cfg.rxBufLen
  /-- in `ENCODE` there is a job (44_tx_encoder.md R107) -/
  encodeJob : s.phase = .encode → 0 < s.txN
  /-- in `SUBMIT_TX` the last TXJOB wrote the buffer (45_orchestrator.md R116) -/
  submitJob : s.phase = .submitTx → s.txResult = .ok ∧ jobFits s.cfg s.txN = true
  /-- `TX_RESULT = OK` says that every slot of `TXB` is written (44_tx_encoder.md R107) -/
  txbFilled : s.txResult = .ok → Memory.filled s.txb s.cfg.txBufLen
  /-- after a fault the run only shuts down (60_exceptions.md R123, R130) -/
  faulted : s.faultCode ≠ .none → s.phase = .shutdown ∨ s.phase = .halted
  /-- only three phases have a second part (log entry 4) -/
  midPhase : s.midPhase = true → s.phase = .decode ∨ s.phase = .hostRead ∨ s.phase = .encode

/-- The next input is an operation word, and it is `i`'s. -/
def Drives (s : State) (i : Instr) : Prop := ∃ w rest, s.inputs = .op w :: rest ∧ decode w = .ok i

/-- No operation word comes first, and `ins` are the inputs a step leaves that takes no answer: a `pass` that comes first is
taken, an answer that comes first stays (log entry 2). -/
def LeavesInputs (s : State) (ins : List Input) : Prop :=
  (s.inputs = [] ∧ ins = []) ∨ s.inputs = .pass :: ins ∨ ∃ a rest, s.inputs = .answer a :: rest ∧ ins = .answer a :: rest

/-- The step does not stop on a fault of the model. -/
def NoModelFault (s : State) : Prop := ∀ f, step s ≠ .fault f

end Sys2Proof.Machine
end

