-- ==== Sys2Proof/Certificates/Slice0/Obligations.lean ====
section
/-! DEFINITION. The statements for the provers. Every statement quantifies over the configuration through `State.cfg`; a premise
on it is named where a claim needs one (00_scope.md R12). -/

open Sys2Proof Sys2Proof.Machine

/-! ### Encoding (30_encoding.md) -/

/-- Decoding an instruction's word gives the instruction back, for every operand (R59 to R62). -/
def Obligations.DecodeEncodeRoundTrip : Prop :=
  ∀ i : Instr, decode (encode i) = .ok i

/-- A legal word is the word of the one instruction it decodes to: no two words are one operation (R60). -/
def Obligations.EncodeDecodeRoundTrip : Prop :=
  ∀ (w : OpWord) (i : Instr), decode w = .ok i → encode i = w

/-- R60 and R126: which words are legal, in arithmetic on the word's number, and what every other word does outside `HALTED`. -/
def Obligations.LegalWordsDecodeOthersRaiseBadOp : Prop :=
  ∀ w : OpWord,
    ((∃ i, decode w = .ok i) ↔
      w.toNat / 2 ^ 32 ≤ 6 ∧ (w.toNat / 2 ^ 32 = 5 → w.toNat % 2 ^ 32 / 2 ^ 8 = 0) ∧
        (w.toNat / 2 ^ 32 ≠ 2 → w.toNat / 2 ^ 32 ≠ 5 → w.toNat % 2 ^ 32 = 0)) ∧
    ((∀ i, decode w ≠ .ok i) → ∀ s : State, s.phase ≠ .halted → runWord w s = .next (faultEntry .badOp s))

/-- The words the spec writes out (95_test_vectors.md sections 1 and 10) decode as it says. -/
def Obligations.SpecWordsDecodeAsWritten : Prop :=
  decode 0x000000000 = .ok .reset ∧ decode 0x100000000 = .ok .rxbegin ∧ decode 0x300000000 = .ok .rxend ∧
  decode 0x400000000 = .ok .txjob ∧ decode 0x600000000 = .ok .stopreq ∧
  decode 0x203E803E8 = .ok (.rxsample 1000 1000) ∧ decode 0x27FFF8000 = .ok (.rxsample (-32768) 32767) ∧
  decode 0x5000000A1 = .ok (.pfeed 0xA1) ∧ decode 0x500000100 = .error .nonzeroMustBeZero ∧
  decode 0x800000000 = .error .reservedOpc

/-! ### Reset and faults (70_reset_and_hazards.md, 60_exceptions.md) -/

/-- RESET completes from every state. After it, and in the machine's own reset state, every register has its reset value and every
buffer no value (R41, R52). -/
def Obligations.ResetGivesEveryRegisterItsResetValue : Prop :=
  (∀ s : State, ∃ t : State, exec .reset s = .next t) ∧
  ∀ t : State, (t = State.reset ∨ ∃ s : State, exec .reset s = .next t) →
    t.decMode = .searchingHeader ∧ t.decPol = .normal ∧ t.hdrReg = 0 ∧ t.byteAcc = 0 ∧ t.bitCnt = 0 ∧ t.ref = 0 ∧
    t.cycOpen = false ∧ t.preIdx = 0 ∧ t.preFound = false ∧ t.outCount = 0 ∧ t.outOvf = false ∧ t.txN = 0 ∧
    t.txResult = .none ∧ t.phase = .boot ∧ t.sidx = 0 ∧ t.stopFlag = false ∧ t.idleCnt = 0 ∧ t.faultCode = .none ∧
    t.faultPhase = .boot ∧
    ∀ k, Memory.load t.rxb k = none ∧ Memory.load t.txb k = none ∧ Memory.load t.outb k = none ∧
      Memory.load t.jobb k = none

/-- The frame of RESET, the model's choice (log entries 4 and 10): the configuration, the inputs, the events and the counter of
free values stay, and the present phase starts from its beginning. -/
def Obligations.ResetLeavesTheEnvironment : Prop :=
  ∀ s t : State, exec .reset s = .next t →
    t.cfg = s.cfg ∧ t.inputs = s.inputs ∧ t.events = s.events ∧ t.freeCtr = s.freeCtr ∧ t.midPhase = false

/-- Fault entry (R123, R129): what it saves and where it goes, and that it changes nothing else. -/
def Obligations.FaultEntrySavesCodeAndPhaseOnce : Prop :=
  ∀ (c : FaultCode) (s : State),
    (s.faultCode = .none → (faultEntry c s).faultCode = c ∧ (faultEntry c s).faultPhase = s.phase) ∧
    (s.faultCode ≠ .none → (faultEntry c s).faultCode = s.faultCode ∧ (faultEntry c s).faultPhase = s.faultPhase) ∧
    (s.phase ≠ .shutdown → s.phase ≠ .halted → (faultEntry c s).phase = .shutdown) ∧
    (s.phase = .shutdown ∨ s.phase = .halted → (faultEntry c s).phase = s.phase) ∧
    { faultEntry c s with
      faultCode := s.faultCode, faultPhase := s.faultPhase, phase := s.phase, midPhase := s.midPhase } = s

/-- The first fault is kept by every step but a RESET (R38, R128). -/
def Obligations.FirstFaultIsKeptUntilReset : Prop :=
  ∀ s t : State, step s = .next t → s.faultCode ≠ .none → ¬ Drives s .reset →
    t.faultCode = s.faultCode ∧ t.faultPhase = s.faultPhase

/-- R125: in `HALTED` every word but RESET's changes nothing, RESET leaves `HALTED`, and nothing else does. -/
def Obligations.HaltedIgnoresEverythingButReset : Prop :=
  (∀ (w : OpWord) (s : State), s.phase = .halted → decode w ≠ .ok .reset → runWord w s = .next s) ∧
  (∀ s : State, s.phase = .halted → ∃ t, exec .reset s = .next t ∧ t.phase = .boot) ∧
  (∀ s t : State, s.phase = .halted → step s = .next t → t.phase ≠ .halted → Drives s .reset)

/-- `SEQ_ERR` (R108; the second clause R90, R98, R113; RXBEGIN R99): the fault is entered and nothing else changes. -/
def Obligations.CycleViolationsRaiseSeqErr : Prop :=
  ∀ s : State, s.phase ≠ .halted →
    (s.cycOpen = true →
      exec .txjob s = .next (faultEntry .seqErr s) ∧ exec .rxbegin s = .next (faultEntry .seqErr s)) ∧
    (s.cycOpen = false →
      (∀ i q, exec (.rxsample i q) s = .next (faultEntry .seqErr s)) ∧
      (∀ b, exec (.pfeed b) s = .next (faultEntry .seqErr s)) ∧
      exec .rxend s = .next (faultEntry .seqErr s))

/-! ### Codec (41_symbol_codec.md) -/

/-- R63 and R64: the components of the symbols the encoder writes. -/
def Obligations.SymbolsHaveTheirMagnitudes : Prop :=
  ∀ c : Config, c.wf = true →
    ((encBit c true).i.toInt = c.symMag ∧ (encBit c true).q.toInt = c.symMag) ∧
    ((encBit c false).i.toInt = -(c.symMag : Int) ∧ (encBit c false).q.toInt = -(c.symMag : Int)) ∧
    ((guardSymbol c).i.toInt = c.guardHigh ∧ (guardSymbol c).q.toInt = c.guardHigh ∧ 0 < c.guardHigh) ∧
    ((idleSymbol c).i.toInt = c.idleLow ∧ (idleSymbol c).q.toInt = c.idleLow ∧ c.idleLow < 0)

/-- The amplitude's range, and that `REF` holds half of it exactly (R72 to R74, 10_state.md R25). -/
def Obligations.ReferenceHoldsHalfTheAmplitudeExactly : Prop :=
  ∀ (c : Config) (x : Sample), c.wf = true →
    -(2 ^ 30) ≤ amp c x ∧ amp c x ≤ 2 ^ 30 - 2 ^ 15 ∧
    (BitVec.ofInt 32 (half (amp c x))).toInt = half (amp c x)

/-- R78, which the spec marks as derived: one symbol after another of the same magnitude is recovered under `NORMAL` and complemented under `INVERTED`. -/
def Obligations.DataSymbolsAreRecovered : Prop :=
  ∀ (c : Config) (b p : Bool), c.wf = true →
    amp c (encBit c b) = (if b then 1 else -1) * ((c.symMag : Int) * 2 ^ c.ampShift) ∧
    half (amp c (encBit c p)) = (if p then 1 else -1) * half ((c.symMag : Int) * 2 ^ c.ampShift) ∧
    decideBit (amp c (encBit c b)) (half (amp c (encBit c p))) .normal = b ∧
    decideBit (amp c (encBit c b)) (half (amp c (encBit c p))) .inverted = !b

/-- The sample word of R62 and the little-endian slot bytes of 20_memory.md R47: I in bytes 0 and 1, Q in bytes 2 and 3. -/
def Obligations.SampleWordAndSlotBytes : Prop :=
  ∀ (x : Sample) (b0 b1 b2 b3 : Byte),
    sampleOfWord (sampleWord x) = x ∧ (sampleWord x).toNat = x.i.toNat + 2 ^ 16 * x.q.toNat ∧
    (sampleBytes x = [b0, b1, b2, b3] ↔
      x.i.toNat = b0.toNat + 2 ^ 8 * b1.toNat ∧ x.q.toNat = b2.toNat + 2 ^ 8 * b3.toNat)

/-! ### Decoder (42_decoder.md) -/

/-- RXSAMPLE in `SEARCHING_HEADER` (R84, R85): the new state in full. -/
def Obligations.RxsampleSearchesTheHeader : Prop :=
  ∀ (s : State) (i q : BitVec 16), s.phase ≠ .halted → s.cycOpen = true → s.decMode = .searchingHeader →
    let a : Int := i.toInt * 2 ^ s.cfg.ampShift
    let h : BitVec 12 := BitVec.ofNat 12 (2 * s.hdrReg.toNat + if s.ref.toInt ≤ a then 1 else 0)
    let r : BitVec 32 := BitVec.ofInt 32 (a.tdiv 2)
    (h = s.cfg.hdrNormal → exec (.rxsample i q) s =
      .next { s with ref := r, decMode := .collectingByte, decPol := .normal, hdrReg := 0, bitCnt := 0 }) ∧
    (h ≠ s.cfg.hdrNormal → h = s.cfg.hdrInverted → exec (.rxsample i q) s =
      .next { s with ref := r, decMode := .collectingByte, decPol := .inverted, hdrReg := 0, bitCnt := 0 }) ∧
    (h ≠ s.cfg.hdrNormal → h ≠ s.cfg.hdrInverted → exec (.rxsample i q) s = .next { s with ref := r, hdrReg := h })

/-- RXSAMPLE in `COLLECTING_BYTE` before the eighth bit (R83, R86): the new state in full. -/
def Obligations.RxsampleCollectsAPayloadBit : Prop :=
  ∀ (s : State) (i q : BitVec 16), s.phase ≠ .halted → s.cycOpen = true → s.decMode = .collectingByte →
    s.bitCnt.toNat < 7 →
    let a : Int := i.toInt * 2 ^ s.cfg.ampShift
    let one : Prop := (s.decPol = .normal ∧ s.ref.toInt ≤ a) ∨ (s.decPol = .inverted ∧ a ≤ s.ref.toInt)
    let next (bit : Nat) : State :=
      { s with
        ref := BitVec.ofInt 32 (a.tdiv 2)
        byteAcc := BitVec.ofNat 8 (2 * s.byteAcc.toNat + bit)
        bitCnt := BitVec.ofNat 4 (s.bitCnt.toNat + 1) }
    (one → exec (.rxsample i q) s = .next (next 1)) ∧ (¬ one → exec (.rxsample i q) s = .next (next 0))

/-- RXSAMPLE with the eighth bit (R83, R86, R87): the byte is fed to the matcher, stored or dropped, and the search starts
again. The premise on `PRE_IDX` is the invariant's. -/
def Obligations.RxsampleCompletesAByte : Prop :=
  ∀ (s : State) (i q : BitVec 16), s.phase ≠ .halted → s.cycOpen = true → s.decMode = .collectingByte →
    s.bitCnt.toNat = 7 → s.preFound = true ∨ s.preIdx.toNat < 2 →
    let a : Int := i.toInt * 2 ^ s.cfg.ampShift
    let one : Prop := (s.decPol = .normal ∧ s.ref.toInt ≤ a) ∨ (s.decPol = .inverted ∧ a ≤ s.ref.toInt)
    ∃ (t : State) (v : Byte), exec (.rxsample i q) s = .next t ∧
      (one → v = BitVec.ofNat 8 (2 * s.byteAcc.toNat + 1)) ∧ (¬ one → v = BitVec.ofNat 8 (2 * s.byteAcc.toNat)) ∧
      t.decMode = .searchingHeader ∧ t.byteAcc = v ∧ t.bitCnt = 8 ∧ t.ref = BitVec.ofInt 32 (a.tdiv 2) ∧
      t.hdrReg = s.hdrReg ∧ t.decPol = s.decPol ∧
      (s.preFound = true → t.preFound = true ∧ t.preIdx = s.preIdx) ∧
      (s.preFound = false → s.cfg.preamble.toList[s.preIdx.toNat]? = some v →
        t.preIdx = s.preIdx + 1 ∧ (t.preFound = true ↔ s.preIdx = 1)) ∧
      (s.preFound = false → s.cfg.preamble.toList[s.preIdx.toNat]? ≠ some v → t.preIdx = 0 ∧ t.preFound = false) ∧
      (s.outCount < s.cfg.rxOutCap → t.outCount = s.outCount + 1 ∧ Memory.load t.outb s.outCount = some v ∧
        (∀ k, k ≠ s.outCount → Memory.load t.outb k = Memory.load s.outb k) ∧ t.outOvf = s.outOvf) ∧
      (s.cfg.rxOutCap ≤ s.outCount → t.outCount = s.outCount ∧ t.outb = s.outb ∧ t.outOvf = true)

/-- The frame of RXSAMPLE, on every path that gives a next state (R83): the store address is `OUT_COUNT`. -/
def Obligations.RxsampleFrame : Prop :=
  ∀ (s t : State) (i q : BitVec 16), exec (.rxsample i q) s = .next t →
    (t.cfg = s.cfg ∧ t.cycOpen = s.cycOpen ∧ t.txN = s.txN ∧ t.txResult = s.txResult ∧ t.sidx = s.sidx ∧
      t.stopFlag = s.stopFlag ∧ t.idleCnt = s.idleCnt ∧ t.inputs = s.inputs ∧ t.events = s.events ∧
      t.freeCtr = s.freeCtr) ∧
    (∀ k, Memory.load t.rxb k = Memory.load s.rxb k ∧ Memory.load t.txb k = Memory.load s.txb k ∧
      Memory.load t.jobb k = Memory.load s.jobb k) ∧
    (∀ k, k ≠ s.outCount → Memory.load t.outb k = Memory.load s.outb k) ∧
    (t.outCount = s.outCount → ∀ k, Memory.load t.outb k = Memory.load s.outb k) ∧
    (s.cycOpen = true → t.phase = s.phase ∧ t.midPhase = s.midPhase ∧ t.faultCode = s.faultCode ∧
      t.faultPhase = s.faultPhase) ∧
    (s.decMode = .searchingHeader → t.byteAcc = s.byteAcc ∧ t.preIdx = s.preIdx ∧ t.preFound = s.preFound ∧
      t.outCount = s.outCount ∧ t.outOvf = s.outOvf) ∧
    (s.decMode = .collectingByte → t.hdrReg = s.hdrReg ∧ t.decPol = s.decPol) ∧
    (s.cycOpen = false → t.decMode = s.decMode ∧ t.decPol = s.decPol ∧ t.hdrReg = s.hdrReg ∧ t.byteAcc = s.byteAcc ∧
      t.bitCnt = s.bitCnt ∧ t.ref = s.ref ∧ t.preIdx = s.preIdx ∧ t.preFound = s.preFound ∧ t.outCount = s.outCount ∧
      t.outOvf = s.outOvf)

/-- R77, which the spec marks as derived: "The Q component of a received Sample affects nothing in the core." -/
def Obligations.RxsampleIgnoresQ : Prop :=
  ∀ (s : State) (i q q' : BitVec 16), exec (.rxsample i q) s = exec (.rxsample i q') s

/-- 95_test_vectors.md P1: a header and a byte sent as data symbols are decoded, in either polarity. The premises on the
constants are those of 92_eei_decisions.md D4: no window of the sent header matches early (42_decoder.md R91), and for the
inverted header the inverted constant is the complement of the normal one. -/
def Obligations.HeaderAndByteAreDecoded : Prop :=
  ∀ (s : State) (v : Byte), s.cfg.wf = true → s.phase ≠ .halted → s.cycOpen = true → s.decMode = .searchingHeader →
    s.hdrReg = 0 → s.outCount < s.cfg.rxOutCap → s.preFound = true ∨ s.preIdx.toNat < 2 →
    -((s.cfg.symMag : Int) * 2 ^ s.cfg.ampShift) < s.ref.toInt →
    s.ref.toInt ≤ (s.cfg.symMag : Int) * 2 ^ s.cfg.ampShift →
    ((∀ j, 1 ≤ j → j < 12 →
        s.cfg.hdrNormal >>> (12 - j) ≠ s.cfg.hdrNormal ∧ s.cfg.hdrNormal >>> (12 - j) ≠ s.cfg.hdrInverted) →
      ∃ t, execList (rxHdr s.cfg ++ rxByte s.cfg v) s = .next t ∧ t.decMode = .searchingHeader ∧ t.hdrReg = 0 ∧
        t.decPol = .normal ∧ t.outCount = s.outCount + 1 ∧ Memory.load t.outb s.outCount = some v) ∧
    (s.cfg.hdrInverted = ~~~ s.cfg.hdrNormal →
      (∀ j, 1 ≤ j → j < 12 →
        s.cfg.hdrInverted >>> (12 - j) ≠ s.cfg.hdrNormal ∧ s.cfg.hdrInverted >>> (12 - j) ≠ s.cfg.hdrInverted) →
      ∃ t, execList (rxHdrN s.cfg ++ rxByteN s.cfg v) s = .next t ∧ t.decMode = .searchingHeader ∧ t.hdrReg = 0 ∧
        t.decPol = .inverted ∧ t.outCount = s.outCount + 1 ∧ Memory.load t.outb s.outCount = some v)

/-- 95_test_vectors.md P5 (R93): a header and four payload bits in one cycle and the other four in the next complete the byte,
in the cycle of its eighth bit. -/
def Obligations.ByteSplitAcrossCyclesCompletes : Prop :=
  ∀ (s : State) (v : Byte), s.cfg.wf = true → s.phase ≠ .halted → s.cycOpen = true → s.decMode = .searchingHeader →
    s.hdrReg = 0 → s.outCount ≤ s.cfg.rxOutCap → Memory.filled s.outb s.outCount →
    -((s.cfg.symMag : Int) * 2 ^ s.cfg.ampShift) < s.ref.toInt →
    s.ref.toInt ≤ (s.cfg.symMag : Int) * 2 ^ s.cfg.ampShift →
    (∀ j, 1 ≤ j → j < 12 →
      s.cfg.hdrNormal >>> (12 - j) ≠ s.cfg.hdrNormal ∧ s.cfg.hdrNormal >>> (12 - j) ≠ s.cfg.hdrInverted) →
    ∃ t, execList (rxHdr s.cfg ++ (rxByte s.cfg v).take 4 ++ [.rxend, .rxbegin] ++ (rxByte s.cfg v).drop 4) s = .next t ∧
      t.decMode = .searchingHeader ∧ t.outCount = 1 ∧ Memory.load t.outb 0 = some v

/-! ### Preamble matcher and cycle start (43_preamble.md) -/

/-- RXBEGIN (R99): its one word, the new state in full outside a cycle, and `SEQ_ERR` inside one. -/
def Obligations.RxbeginOpensAFreshCycle : Prop :=
  (∀ w : OpWord, decode w = .ok .rxbegin ↔ w = 0x100000000) ∧
  ∀ s : State, s.phase ≠ .halted →
    (s.cycOpen = false →
      exec .rxbegin s =
        .next { s with cycOpen := true, preIdx := 0, preFound := false, outCount := 0, outOvf := false }) ∧
    (s.cycOpen = true → exec .rxbegin s = .next (faultEntry .seqErr s))

/-- PFEED in a cycle (R95, R97, R98): the new state in full. The premise on `PRE_IDX` is the invariant's. -/
def Obligations.PfeedFeedsTheMatcher : Prop :=
  ∀ (s : State) (b : Byte), s.phase ≠ .halted → s.cycOpen = true → s.preFound = true ∨ s.preIdx.toNat < 2 →
    (s.preFound = true → exec (.pfeed b) s = .next s) ∧
    (s.preFound = false → s.cfg.preamble.toList[s.preIdx.toNat]? = some b →
      exec (.pfeed b) s = .next { s with preIdx := s.preIdx + 1, preFound := decide (s.preIdx = 1) }) ∧
    (s.preFound = false → s.cfg.preamble.toList[s.preIdx.toNat]? ≠ some b →
      exec (.pfeed b) s = .next { s with preIdx := 0 })

/-- 95_test_vectors.md P3, with R96's restart from the first byte and its sequence that is not found. -/
def Obligations.PreambleSequencesAreFoundAsStated : Prop :=
  ∀ (s : State) (p0 p1 : Byte), s.phase ≠ .halted → s.cycOpen = true → s.preIdx = 0 → s.preFound = false →
    s.cfg.preamble = #v[p0, p1] →
    execList [.pfeed p0, .pfeed p1] s = .next { s with preIdx := 2, preFound := true } ∧
    (∀ x, x ≠ p0 → exec (.pfeed x) s = .next s) ∧
    (∀ x, x ≠ p1 → execList [.pfeed p0, .pfeed x] s = .next s) ∧
    (∀ x, x ≠ p1 →
      execList [.pfeed p0, .pfeed x, .pfeed p0, .pfeed p1] s = .next { s with preIdx := 2, preFound := true }) ∧
    (p0 ≠ p1 → execList [.pfeed p0, .pfeed p0, .pfeed p1] s = .next s)

/-- 95_test_vectors.md P4 (R100): whatever the matcher had seen, one byte in the next cycle does not find the preamble. -/
def Obligations.PreambleDoesNotCrossCycles : Prop :=
  ∀ (s : State) (b : Byte), s.phase ≠ .halted → s.cycOpen = true → s.outCount ≤ s.cfg.rxOutCap →
    Memory.filled s.outb s.outCount →
    ∃ t, execList [.rxend, .rxbegin, .pfeed b] s = .next t ∧ t.preFound = false ∧ t.preIdx.toNat ≤ 1

/-- R93: RXBEGIN and RXEND leave the six decoder registers as they are, on every path; and no byte of any buffer changes. -/
def Obligations.CycleBoundariesKeepTheDecoder : Prop :=
  ∀ s t : State, exec .rxbegin s = .next t ∨ exec .rxend s = .next t →
    t.decMode = s.decMode ∧ t.decPol = s.decPol ∧ t.hdrReg = s.hdrReg ∧ t.byteAcc = s.byteAcc ∧ t.bitCnt = s.bitCnt ∧
    t.ref = s.ref ∧ t.txN = s.txN ∧ t.txResult = s.txResult ∧ t.sidx = s.sidx ∧ t.stopFlag = s.stopFlag ∧
    t.cfg = s.cfg ∧ t.inputs = s.inputs ∧
    ∀ k, Memory.load t.rxb k = Memory.load s.rxb k ∧ Memory.load t.txb k = Memory.load s.txb k ∧
      Memory.load t.outb k = Memory.load s.outb k ∧ Memory.load t.jobb k = Memory.load s.jobb k

/-- The frame of PFEED, on every path (R98): only the matcher's two registers and what a fault writes may change. -/
def Obligations.PfeedFrame : Prop :=
  ∀ (s t : State) (b : Byte), exec (.pfeed b) s = .next t →
    (s.cycOpen = true → { t with preIdx := s.preIdx, preFound := s.preFound } = s) ∧
    (s.cycOpen = false → { t with
      faultCode := s.faultCode, faultPhase := s.faultPhase, phase := s.phase, midPhase := s.midPhase } = s)

/-! ### RXEND and the heartbeat (45_orchestrator.md) -/

/-- RXEND in a cycle (R113, R114), the new state in full. The heartbeat comes when the count reaches the limit,
whatever the limit; the last clause is for a count that fits the 32 bits, and the next statement has the other case. -/
def Obligations.RxendReportsAndCloses : Prop :=
  ∀ (s : State) (bytes : List Byte), s.phase ≠ .halted → s.cycOpen = true → s.outCount ≤ s.cfg.rxOutCap →
    bytes.length = s.outCount → (∀ k, k < s.outCount → Memory.load s.outb k = bytes[k]?) →
    let report : Event := .report ⟨s.outCount, bytes, s.preFound, s.outOvf, s.preFound⟩
    let idle : Prop := (s.cfg.hbIdleRule = .decoded ∧ s.outCount = 0) ∨
      (s.cfg.hbIdleRule = .reported ∧ ¬ (s.preFound = true ∧ 0 < s.outCount))
    (s.cfg.hbEnable = false →
      exec .rxend s = .next { s with events := s.events ++ [report], cycOpen := false }) ∧
    (s.cfg.hbEnable = true → ¬ idle →
      exec .rxend s = .next { s with events := s.events ++ [report], idleCnt := 0, cycOpen := false }) ∧
    (s.cfg.hbEnable = true → idle → s.idleCnt.toNat + 1 = s.cfg.hbIdleLimit →
      exec .rxend s = .next { s with
        events := s.events ++ [report, .heartbeat s.cfg.hbBytes.toList], idleCnt := 0, cycOpen := false }) ∧
    (s.cfg.hbEnable = true → idle → s.idleCnt.toNat + 1 < 2 ^ 32 → s.idleCnt.toNat + 1 ≠ s.cfg.hbIdleLimit →
      exec .rxend s = .next { s with
        events := s.events ++ [report], idleCnt := BitVec.ofNat 32 (s.idleCnt.toNat + 1), cycOpen := false })

/-- RXEND of an idle cycle whose count neither fits 32 bits nor is the limit completes, with every other effect (log entry 12):
the count is a free value, and the heartbeat is computed from it. -/
def Obligations.RxendCompletesPastTheCounterWidth : Prop :=
  ∀ (s : State) (bytes : List Byte), s.phase ≠ .halted → s.cycOpen = true → s.outCount ≤ s.cfg.rxOutCap →
    bytes.length = s.outCount → (∀ k, k < s.outCount → Memory.load s.outb k = bytes[k]?) →
    (s.cfg.hbIdleRule = .decoded ∧ s.outCount = 0) ∨
      (s.cfg.hbIdleRule = .reported ∧ ¬ (s.preFound = true ∧ 0 < s.outCount)) →
    s.cfg.hbEnable = true → s.idleCnt.toNat + 1 = 2 ^ 32 → s.cfg.hbIdleLimit ≠ 2 ^ 32 →
    ∃ (n : BitVec 32) (hb : List Event),
      exec .rxend s = .next { s with
        events := s.events ++ (.report ⟨s.outCount, bytes, s.preFound, s.outOvf, s.preFound⟩ :: hb)
        idleCnt := n, cycOpen := false, freeCtr := s.freeCtr + 1 } ∧
      ((hb = [] ∧ n.toNat ≠ s.cfg.hbIdleLimit) ∨ (hb = [.heartbeat s.cfg.hbBytes.toList] ∧ n = 0))

/-- 95_test_vectors.md P7 (R114): `HB_IDLE_LIMIT` empty cycles in a row give exactly one heartbeat, the last event, and the
counter is 0 again, under either idle rule, for every limit whose counts between cycles fit 32 bits (10_state.md R37). -/
def Obligations.HeartbeatAfterTheLimitOfIdleCycles : Prop :=
  ∀ s : State, s.cfg.wf = true → s.phase ≠ .halted → s.cycOpen = false → s.cfg.hbEnable = true → s.idleCnt = 0 →
    s.cfg.hbIdleLimit ≤ 2 ^ 32 →
    execList (List.replicate s.cfg.hbIdleLimit [Instr.rxbegin, .rxend]).flatten s =
      .next { s with
        preIdx := 0, preFound := false, outCount := 0, outOvf := false, idleCnt := 0
        events := s.events ++ List.replicate s.cfg.hbIdleLimit (.report ⟨0, [], false, false, false⟩)
          ++ [.heartbeat s.cfg.hbBytes.toList] }

/-! ### Transmit encoder (44_tx_encoder.md) -/

/-- R66, which the spec marks as derived from R102: TXJOB of a job that fits completes, with the transmit buffer's layout slot by
slot, and changes nothing but `TXB` and `TX_RESULT`. -/
def Obligations.TxjobWritesTheFrame : Prop :=
  ∀ (s : State) (bytes : List Byte), s.phase ≠ .halted → s.cycOpen = false →
    bytes.length = s.txN → (∀ j, j < s.txN → Memory.load s.jobb j = bytes[j]?) → s.txN ≤ s.cfg.txMaxBytes →
    s.cfg.guardLen + 60 * s.txN ≤ s.cfg.txBufLen →
    ∃ m : Memory Sample, exec .txjob s = .next { s with txb := m, txResult := .ok } ∧
      (∀ g, g < s.cfg.guardLen → Memory.load m g = some (guardSymbol s.cfg)) ∧
      (∀ r j b, r < 3 → bytes[j]? = some b →
        (∀ k, k < 12 → Memory.load m (s.cfg.guardLen + 20 * (r * s.txN + j) + k) =
          some (encBit s.cfg (s.cfg.hdrNormal.getLsbD (11 - k)))) ∧
        (∀ k, k < 8 → Memory.load m (s.cfg.guardLen + 20 * (r * s.txN + j) + 12 + k) =
          some (encBit s.cfg (b.getLsbD (7 - k))))) ∧
      (∀ p, s.cfg.guardLen + 60 * s.txN ≤ p → p < s.cfg.txBufLen → Memory.load m p = some (idleSymbol s.cfg))

/-- R103: an oversize job is rejected and writes nothing to `TXB`, under either policy, and changes nothing but `TX_RESULT` under
`REJECT_CONTINUE` (what `TX_RESULT` is under `FATAL` stands in the next statement); a job that fills the buffer exactly fits and
has no idle symbol. -/
def Obligations.TxjobRejectsAnOversizeJob : Prop :=
  ∀ s : State, s.phase ≠ .halted → s.cycOpen = false →
    (s.cfg.txBufLen < s.cfg.guardLen + 20 * 3 * s.txN ∨ s.cfg.txMaxBytes < s.txN →
      ∃ t, exec .txjob s = .next t ∧ t.txb = s.txb ∧
        (s.cfg.txSizePolicy = .rejectContinue → t = { s with txResult := .size })) ∧
    (s.cfg.guardLen + 20 * 3 * s.txN = s.cfg.txBufLen → s.txN ≤ s.cfg.txMaxBytes → Memory.filled s.jobb s.txN →
      ∃ t, exec .txjob s = .next t ∧ t.txResult = .ok ∧
        (0 < s.txN → Memory.load t.txb (s.cfg.txBufLen - 1) =
          (Memory.load s.jobb (s.txN - 1)).map fun b => encBit s.cfg (b.getLsbD 0)) ∧
        (s.txN = 0 → 0 < s.cfg.txBufLen → Memory.load t.txb (s.cfg.txBufLen - 1) = some (guardSymbol s.cfg)))

/-- R106's policy `FATAL`: an oversize job enters `Fault(TX_SIZE)`. That `TX_RESULT` is `SIZE` after it is the model's reading of
R102 and R106 against R123 (log entry 11). -/
def Obligations.TxjobUnderFatalEntersTxSize : Prop :=
  ∀ s : State, s.phase ≠ .halted → s.cycOpen = false → s.cfg.txSizePolicy = .fatal →
    (s.cfg.txBufLen < s.cfg.guardLen + 20 * 3 * s.txN ∨ s.cfg.txMaxBytes < s.txN) →
    ∃ t, exec .txjob s = .next t ∧ (s.faultCode = .none → t.faultCode = .txSize ∧ t.faultPhase = s.phase) ∧
      (s.faultCode ≠ .none → t.faultCode = s.faultCode ∧ t.faultPhase = s.faultPhase) ∧ t.phase = .shutdown ∧
      t.txResult = .size ∧ t.txb = s.txb ∧ t.jobb = s.jobb ∧ t.txN = s.txN ∧ t.events = s.events

/-- The frame of TXJOB, on every path (R102, R103): it stores only to `TXB[0..TX_BUF_LEN-1]`, and only for a job that fits. -/
def Obligations.TxjobFrame : Prop :=
  ∀ s t : State, exec .txjob s = .next t →
    { t with
      txb := s.txb, txResult := s.txResult
      faultCode := s.faultCode, faultPhase := s.faultPhase, phase := s.phase, midPhase := s.midPhase } = s ∧
    (∀ p, s.cfg.txBufLen ≤ p → Memory.load t.txb p = Memory.load s.txb p) ∧
    (t.txResult ≠ .ok ∨ s.cycOpen = true ∨ s.phase = .halted → ∀ p, Memory.load t.txb p = Memory.load s.txb p) ∧
    (s.cycOpen = true ∨ s.phase = .halted → t.txResult = s.txResult) ∧
    (s.cycOpen = false → (s.cfg.txSizePolicy = .rejectContinue ∨ jobFits s.cfg s.txN = true) →
      t.phase = s.phase ∧ t.midPhase = s.midPhase ∧ t.faultCode = s.faultCode ∧ t.faultPhase = s.faultPhase)

/-- R109, which the spec marks as derived: the round trip, from the decoder's reset state, under the premise that no header window matches early. -/
def Obligations.TransmitReceiveRoundTrip : Prop :=
  ∀ (s : State) (bytes : List Byte), s.cfg.wf = true → s.phase ≠ .halted → s.cycOpen = false →
    s.decMode = .searchingHeader → s.hdrReg = 0 → s.ref = 0 →
    bytes.length = s.txN → (∀ j, j < s.txN → Memory.load s.jobb j = bytes[j]?) → s.txN ≤ s.cfg.txMaxBytes →
    s.cfg.guardLen + 60 * s.txN ≤ s.cfg.txBufLen → 3 * s.txN ≤ s.cfg.rxOutCap →
    (∀ j, 1 ≤ j → j < 12 →
      s.cfg.hdrNormal >>> (12 - j) ≠ s.cfg.hdrNormal ∧ s.cfg.hdrNormal >>> (12 - j) ≠ s.cfg.hdrInverted) →
    ∃ (t u : State) (samples : List Sample), exec .txjob s = .next t ∧ samples.length = 60 * s.txN ∧
      (∀ k, k < 60 * s.txN → Memory.load t.txb (s.cfg.guardLen + k) = samples[k]?) ∧
      execList (.rxbegin :: samples.map rxOf) t = .next u ∧
      u.outCount = 3 * s.txN ∧ ∀ k, k < 3 * s.txN → Memory.load u.outb k = bytes[k % s.txN]?

/-! ### Stop requests (45_orchestrator.md R117 to R119) -/

/-- R117: STOPREQ sets the flag and nothing else, in every phase but `HALTED`, where it changes nothing. -/
def Obligations.StopreqOnlySetsTheFlag : Prop :=
  ∀ s : State, (s.phase ≠ .halted → exec .stopreq s = .next { s with stopFlag := true }) ∧
    (s.phase = .halted → exec .stopreq s = .next s)

/-- `STOP_FLAG` is cleared only by RESET (10_state.md R36). -/
def Obligations.StopFlagIsClearedOnlyByReset : Prop :=
  ∀ s t : State, step s = .next t → s.stopFlag = true → ¬ Drives s .reset → t.stopFlag = true

/-- The flag is tested only at `CHECK_STOP` (R118): in any other phase a pending stop request changes nothing of what a step
does, so it ends no wait and no decode pass. -/
def Obligations.StopRequestWaitsForCheckStop : Prop :=
  ∀ s t : State, s.phase ≠ .checkStop → ¬ Drives s .reset → step { s with stopFlag := false } = .next t →
    step { s with stopFlag := true } = .next { t with stopFlag := true }

/-- "`SHUTDOWN` is entered from `CHECK_STOP` with `STOP_FLAG = 1`, or from fault entry" (R119). -/
def Obligations.ShutdownIsEnteredFromCheckStopOrFault : Prop :=
  ∀ s t : State, step s = .next t → s.phase ≠ .shutdown → t.phase = .shutdown →
    (s.phase = .checkStop ∧ s.stopFlag = true) ∨ t.faultCode ≠ .none

/-! ### The phase machine (45_orchestrator.md R110 to R120) -/

/-- A driven operation word runs as `exec` runs its instruction, with the word taken from the inputs; an illegal word enters
`BAD_OP`, and in `HALTED` changes nothing (R60, R125, R126); so does the word that `withFetchWord` places. That a driven word is
the head of the inputs, and that `withFetchWord` puts it there, are the model's choices (log entries 2, 16 and 19). -/
def Obligations.StepRunsTheDrivenInstruction : Prop :=
  ∀ s : State, s.cfg.wf = true →
    (∀ w rest, s.inputs = .op w :: rest →
      (∀ i, decode w = .ok i → step s = exec i { s with inputs := rest }) ∧
      ((∀ i, decode w ≠ .ok i) → s.phase ≠ .halted → step s = .next (faultEntry .badOp { s with inputs := rest })) ∧
      ((∀ i, decode w ≠ .ok i) → s.phase = .halted → step s = .next { s with inputs := rest })) ∧
    (∀ nbits w, 36 ≤ nbits → w < 2 ^ 36 →
      (∀ i, decodeTableWord nbits w = some i → step (s.withFetchWord nbits w) = exec i s) ∧
      (decodeTableWord nbits w = none → s.phase ≠ .halted →
        step (s.withFetchWord nbits w) = .next (faultEntry .badOp s)))

/-- R111's table as the edges a step may take, beside fault entry and RESET. -/
def Obligations.PhasesFollowTheTable : Prop :=
  ∀ s t : State, step s = .next t → t.phase ≠ s.phase → ¬ Drives s .reset →
    (t.phase = .shutdown ∧ t.faultCode ≠ .none) ∨
    (s.phase, t.phase) ∈ [(Phase.boot, Phase.acqRx), (.acqRx, .decode), (.decode, .report), (.report, .hostRead),
      (.hostRead, .encode), (.hostRead, .checkStop), (.encode, .submitTx), (.encode, .checkStop),
      (.submitTx, .checkStop), (.checkStop, .shutdown), (.checkStop, .acqRx), (.shutdown, .halted)]

/-- The front end's `error` answers (60_exceptions.md R124): each enters the fault of its phase and writes nothing else. -/
def Obligations.FrontEndErrorsEnterTheirFault : Prop :=
  ∀ (s : State) (rest : List Input), s.cfg.wf = true →
    (s.phase = .boot → s.inputs = .answer (.configure false) :: rest →
      step s = .next (faultEntry .feConfig { s with inputs := rest })) ∧
    (s.phase = .acqRx → s.inputs = .answer .receiveError :: rest →
      step s = .next (faultEntry .feRx { s with inputs := rest })) ∧
    (s.phase = .encode → s.midPhase = false → s.inputs = .answer (.transmitSlot false) :: rest →
      step s = .next (faultEntry .feTx { s with inputs := rest })) ∧
    (s.phase = .submitTx → s.inputs = .answer (.submit false) :: rest →
      step s = .next (faultEntry .feTx { s with inputs := rest }))

/-- `ACQ_RX` on ok (R112): `RXB` holds the delivered samples in order, and nothing else changes but the phase. -/
def Obligations.ReceiveHandoverFillsTheBuffer : Prop :=
  ∀ (s : State) (samples : List Sample) (rest : List Input), s.cfg.wf = true → s.phase = .acqRx →
    s.inputs = .answer (.receiveBuffer samples) :: rest → samples.length = s.cfg.rxBufLen →
    ∃ m : Memory Sample, step s = .next { s with inputs := rest, rxb := m, phase := .decode, midPhase := false } ∧
      ∀ k, k < s.cfg.rxBufLen → Memory.load m k = samples[k]?

/-- The decode pass (R112) terminates and is the direct drive of RXBEGIN and the buffer's samples in index order: with no
operation driven and no `pass` (an answer to a later request may stand first, and stays), after `RX_BUF_LEN` + 2 steps the core is in `REPORT`, and everything but the phase and `SIDX` is as that
trace leaves it. -/
def Obligations.DecodePassRunsTheBufferInOrder : Prop :=
  ∀ (s : State) (samples : List Sample), Inv s → s.phase = .decode → s.midPhase = false → s.cycOpen = false →
    (s.inputs = [] ∨ ∃ a rest, s.inputs = .answer a :: rest) → samples.length = s.cfg.rxBufLen →
    (∀ k, k < s.cfg.rxBufLen → Memory.load s.rxb k = samples[k]?) →
    ∃ t : State, execList (.rxbegin :: samples.map rxOf) s = .next t ∧
      Host.Core.run core (s.cfg.rxBufLen + 2) s =
        .next { t with phase := .report, midPhase := false, sidx := s.cfg.rxBufLen }

/-- `HOST_READ` on an answer (R115): the job is the host's bytes; with no shutdown request the phase follows from N at once, and
with one the STOPREQ is issued by the step after, whatever inputs but an operation word come then. That the STOPREQ is a step of
its own, and what a step does with a `pass` or a later answer, are the model's choices (log entries 2 and 4). -/
def Obligations.HostAnswerBecomesTheJob : Prop :=
  ∀ (s : State) (bytes : List Byte) (shutdown : Bool) (rest : List Input), s.cfg.wf = true → s.phase = .hostRead →
    s.midPhase = false → s.inputs = .answer (.host bytes shutdown) :: rest → bytes.length ≤ s.cfg.txMaxBytes →
    ∃ m : Memory Byte,
      (∀ k, Memory.load m k = if k < bytes.length then bytes[k]? else Memory.load s.jobb k) ∧
      (shutdown = false → step s = .next { s with
        inputs := rest, txN := bytes.length, jobb := m, midPhase := false
        phase := if 0 < bytes.length then .encode else .checkStop }) ∧
      (shutdown = true →
        step s = .next { s with inputs := rest, txN := bytes.length, jobb := m, midPhase := true } ∧
        ∀ now later, LeavesInputs { s with inputs := now } later →
          step { s with inputs := now, txN := bytes.length, jobb := m, midPhase := true } = .next { s with
            inputs := later, txN := bytes.length, jobb := m, stopFlag := true, midPhase := false
            phase := if 0 < bytes.length then .encode else .checkStop })

/-- The operations the orchestrator issues (R112, R113, R115, R116) are those `exec` runs, with the phase change of R111 after
them, or the phase of fault entry when the operation faults; so in every phase that waits for nothing, whatever inputs but an
operation word come. That each of these is one step (TXJOB one of its own after the slot, the phase change of an operation in the
operation's step) and what it does with a `pass` or an answer at the head are the model's choices (log entries 2 and 4). -/
def Obligations.OrchestratorIssuesTheOperations : Prop :=
  ∀ (s t : State) (ins : List Input), s.cfg.wf = true → LeavesInputs s ins →
    let u : State := { s with inputs := ins }
    (s.phase = .decode → s.midPhase = false → exec .rxbegin u = .next t →
      step s = .next (if s.cycOpen = true then t else { t with sidx := 0, midPhase := true })) ∧
    (∀ x, s.phase = .decode → s.midPhase = true → s.sidx < s.cfg.rxBufLen → Memory.load s.rxb s.sidx = some x →
      exec (.rxsample x.i x.q) u = .next t →
      step s = .next (if s.cycOpen = true then { t with sidx := s.sidx + 1 } else t)) ∧
    (s.phase = .decode → s.midPhase = true → s.cfg.rxBufLen ≤ s.sidx →
      step s = .next { u with phase := .report, midPhase := false }) ∧
    (s.phase = .report → exec .rxend u = .next t →
      step s = .next (if s.cycOpen = true then { t with phase := .hostRead, midPhase := false } else t)) ∧
    (s.phase = .hostRead → s.midPhase = true → exec .stopreq u = .next t →
      step s = .next { t with phase := if 0 < s.txN then .encode else .checkStop, midPhase := false }) ∧
    (s.phase = .encode → s.midPhase = true → exec .txjob u = .next t → t.phase = .encode →
      step s = .next { t with
        phase := if t.txResult = .ok then .submitTx else .checkStop, midPhase := false }) ∧
    (s.phase = .encode → s.midPhase = true → exec .txjob u = .next t → t.phase ≠ .encode → step s = .next t)

/-- Every other handshake, the iteration boundary and the end of the run (R112, R116, R118 to R120). That the slot is a step of
its own that leaves `TXB`, that the submission records `TXB` as an event, and what a step does with a `pass` or a later answer are
the model's (log entries 2, 3, 4 and 15). -/
def Obligations.HandshakesMoveThePhase : Prop :=
  ∀ (s : State) (rest : List Input), s.cfg.wf = true →
    (s.phase = .boot → s.inputs = .answer (.configure true) :: rest →
      step s = .next { s with inputs := rest, phase := .acqRx, midPhase := false }) ∧
    (s.phase = .encode → s.midPhase = false → s.inputs = .answer (.transmitSlot true) :: rest →
      step s = .next { s with inputs := rest, midPhase := true }) ∧
    (s.phase = .submitTx → s.inputs = .answer (.submit true) :: rest →
      step s = .next { s with
        inputs := rest, events := s.events ++ [.submitted s.txb], phase := .checkStop, midPhase := false }) ∧
    (s.phase = .checkStop → LeavesInputs s rest →
      step s = .next { s with
        inputs := rest, phase := if s.stopFlag = true then .shutdown else .acqRx, midPhase := false }) ∧
    (s.phase = .shutdown → s.inputs = .answer .shutdownDone :: rest →
      step s = .next { s with inputs := rest, events := s.events ++ [.released], phase := .halted, midPhase := false }) ∧
    (s.phase = .halted → LeavesInputs s rest → step s = .next { s with inputs := rest })

/-- The waits (60_exceptions.md R137): without an answer the core stays, at `HOST_READ` unless `HOST_NONBLOCK`, and a stop
request sets the flag and ends no wait. That a `pass` stands for a moment with no input is the model's choice (log entry 2). -/
def Obligations.WaitsStayUntilAnswered : Prop :=
  ∀ s : State, s.cfg.wf = true →
    (s.phase = .boot ∨ s.phase = .acqRx ∨ (s.phase = .hostRead ∧ s.midPhase = false ∧ s.cfg.hostNonblock = false) ∨
      (s.phase = .encode ∧ s.midPhase = false) ∨ s.phase = .submitTx ∨ s.phase = .shutdown) →
    (s.inputs = [] → step s = .next s) ∧
    (∀ rest, s.inputs = .pass :: rest → step s = .next { s with inputs := rest }) ∧
    (∀ rest, s.inputs = .op (encode .stopreq) :: rest → step s = .next { s with inputs := rest, stopFlag := true })

/-- "The contents of `RXB` are fixed from the receive handover that fills it until the next receive handover" (20_memory.md
R54); RESET alone empties it. -/
def Obligations.ReceiveBufferIsFixedBetweenHandovers : Prop :=
  ∀ s t : State, step s = .next t → s.phase ≠ .acqRx → ¬ Drives s .reset → t.rxb = s.rxb

/-! ### The invariant -/

/-- The invariant holds at reset, under every well-formed configuration and for every list of inputs. -/
def Obligations.InvariantHoldsAtReset : Prop :=
  ∀ (c : Config) (ins : List Input), c.wf = true → Inv ((State.resetWith c).withInputs ins)

/-- Every step keeps the invariant, whatever the environment does. -/
def Obligations.StepKeepsTheInvariant : Prop :=
  ∀ s t : State, Inv s → step s = .next t → Inv t

/-- Under the invariant the model never stops on a fault of its own: every index is in range (20_memory.md R44), and no
element that holds no value is read (R52). -/
def Obligations.InvariantStatesNeverFault : Prop :=
  ∀ s : State, Inv s → NoModelFault s

/-- A step is refused under an ill-formed configuration (00_scope.md R11, R12; log entry 7). Under the invariant it is refused
exactly for an answer that breaks a duty of 45_orchestrator.md R121, for a Host that gives no answer at once in `HOST_NONBLOCK`
mode, or for an answer to another request than the one the core waits on (log entry 6). -/
def Obligations.OnlyBrokenDutiesAreRefused : Prop :=
  (∀ s : State, s.cfg.wf = false → step s = .refused .badConfig) ∧
  ∀ (s : State) (r : Refusal), Inv s → (step s = .refused r ↔
    (r = .shortReceiveBuffer ∧ s.phase = .acqRx ∧ ∃ xs rest, s.inputs = .answer (.receiveBuffer xs) :: rest ∧
      xs.length ≠ s.cfg.rxBufLen) ∨
    (r = .hostAnswerTooLong ∧ s.phase = .hostRead ∧ s.midPhase = false ∧
      ∃ bs sd rest, s.inputs = .answer (.host bs sd) :: rest ∧ s.cfg.txMaxBytes < bs.length) ∨
    (r = .hostNotAtOnce ∧ s.phase = .hostRead ∧ s.midPhase = false ∧ s.cfg.hostNonblock = true ∧
      (s.inputs = [] ∨ ∃ rest, s.inputs = .pass :: rest)) ∨
    (r = .unrequestedAnswer ∧ ∃ a rest, s.inputs = .answer a :: rest ∧
      ((s.phase = .boot ∧ ∀ ok, a ≠ .configure ok) ∨
       (s.phase = .acqRx ∧ (∀ xs, a ≠ .receiveBuffer xs) ∧ a ≠ .receiveError) ∨
       (s.phase = .hostRead ∧ s.midPhase = false ∧ ∀ bs sd, a ≠ .host bs sd) ∨
       (s.phase = .encode ∧ s.midPhase = false ∧ ∀ ok, a ≠ .transmitSlot ok) ∨
       (s.phase = .submitTx ∧ ∀ ok, a ≠ .submit ok) ∨
       (s.phase = .shutdown ∧ a ≠ .shutdownDone))))

/-! ### The status port (10_state.md R39) -/

/-- The map of R39, every field at its bits, the values' numbers those of R20, R21, R33, R34 and 60_exceptions.md R124; for counts
that fit a word. -/
def Obligations.StatusPortReadsTheMap : Prop :=
  ∀ s : State,
    ((rd 0 s).getLsbD 0 = true ↔ s.decMode = .collectingByte) ∧ ((rd 0 s).getLsbD 1 = true ↔ s.decPol = .inverted) ∧
    (rd 0 s).getLsbD 2 = s.preFound ∧ (rd 0 s).getLsbD 3 = s.outOvf ∧ (rd 0 s).getLsbD 4 = s.stopFlag ∧
    (rd 0 s).getLsbD 5 = s.cycOpen ∧ ((rd 0 s).getLsbD 6 = true ↔ s.phase = .halted) ∧ (rd 0 s).getLsbD 7 = false ∧
    (∀ c n, (c, n) ∈ [(FaultCode.none, 0), (.feConfig, 1), (.feRx, 2), (.feTx, 3), (.txSize, 4), (.seqErr, 5), (.badOp, 6)] →
      (s.faultCode = c ↔ ((rd 0 s).extractLsb' 8 4).toNat = n)) ∧
    (∀ r n, (r, n) ∈ [(TxResult.none, 0), (.ok, 1), (.size, 2)] →
      (s.txResult = r ↔ ((rd 0 s).extractLsb' 12 2).toNat = n)) ∧
    (rd 0 s).extractLsb' 14 2 = 0 ∧
    (∀ p n, (p, n) ∈ [(Phase.boot, 0), (.acqRx, 1), (.decode, 2), (.report, 3), (.hostRead, 4), (.encode, 5), (.submitTx, 6),
        (.checkStop, 7), (.shutdown, 8), (.halted, 9)] →
      (s.faultPhase = p ↔ ((rd 0 s).extractLsb' 16 4).toNat = n) ∧ (s.phase = p ↔ ((rd 0 s).extractLsb' 20 4).toNat = n)) ∧
    (rd 0 s).extractLsb' 24 8 = 0 ∧
    (rd 1 s).toNat = s.hdrReg.toNat ∧ (rd 2 s).toNat = s.byteAcc.toNat + 2 ^ 8 * s.bitCnt.toNat ∧ rd 3 s = s.ref ∧
    (rd 4 s).toNat = s.preIdx.toNat ∧ (s.outCount < 2 ^ 32 → (rd 5 s).toNat = s.outCount) ∧ rd 6 s = s.idleCnt ∧
    (s.sidx < 2 ^ 32 → (rd 7 s).toNat = s.sidx) ∧ (s.txN < 2 ^ 32 → (rd 8 s).toNat = s.txN) ∧
    ∀ n : BitVec 8, 9 ≤ n.toNat → rd n s = 0

/-! ### The step's arguments (10_state.md R19) -/

/-- 10_state.md R19: a step depends on the core's state, the configuration and one input, and on nothing else. The machine's step,
which the host's interface gives no arguments, is `stepOn` of them: it leaves the configuration, puts what is emitted after the
earlier events, and leaves the later inputs as they are (log entries 1, 2 and 3). -/
def Obligations.StepIsAFunctionOfItsArguments : Prop :=
  ∀ (s : State) (x : Input) (rest : List Input),
    (s.inputs = x :: rest ∨ (s.inputs = [] ∧ x = .pass ∧ rest = [])) →
    (∀ t, stepOn s.cfg x s.toCoreState = .next t → step s = .next {
      toCoreState := t.core
      cfg := s.cfg
      inputs := if t.taken = true then rest else x :: rest
      events := s.events ++ t.emitted }) ∧
    (∀ f, stepOn s.cfg x s.toCoreState = .fault f → step s = .fault f) ∧
    (∀ r, stepOn s.cfg x s.toCoreState = .refused r → step s = .refused r)
end

