-- ==== Sys2Proof/Laws/Memory.lean ====
section
/-! SUPPORT. The laws of the spaces: read after write, the canonical form kept, and what each memory primitive answers. -/

namespace Sys2Proof.Machine

variable {α : Type}

/-! ### One element -/

theorem Memory.load_store_same (m : Memory α) (k : Nat) (v : α) : Memory.load (Memory.store m k v) k = some v := by
  induction m with
  | nil => simp [Memory.store, Memory.load]
  | cons e m ih =>
    obtain ⟨j, u⟩ := e
    simp only [Memory.store]
    split
    · simp [Memory.load]
    · split
      · simp [Memory.load]
      · simp [Memory.load, *]

theorem Memory.load_store_other (m : Memory α) (k : Nat) (v : α) {j : Nat} (h : j ≠ k) :
    Memory.load (Memory.store m k v) j = Memory.load m j := by
  induction m with
  | nil => simp [Memory.store, Memory.load, h, Memory.unlisted]
  | cons e m ih =>
    obtain ⟨i, u⟩ := e
    simp only [Memory.store]
    split
    · simp [Memory.load, h]
    · split
      · rename_i hk; subst hk; simp [Memory.load, h]
      · simp [Memory.load, ih]

theorem Memory.load_store (m : Memory α) (k : Nat) (v : α) (j : Nat) :
    Memory.load (Memory.store m k v) j = if j = k then some v else Memory.load m j := by
  split
  · rename_i h; subst h; exact Memory.load_store_same m j v
  · rename_i h; exact Memory.load_store_other m k v h

theorem Memory.all_store {m : Memory α} {p : Nat × α → Bool} {k : Nat} {v : α} (hm : m.all p = true) (hp : p (k, v) = true) :
    (Memory.store m k v).all p = true := by
  induction m with
  | nil => simpa [Memory.store] using hp
  | cons e m ih =>
    obtain ⟨j, u⟩ := e
    simp only [List.all_cons, Bool.and_eq_true] at hm
    simp only [Memory.store]
    split
    · simp [hp, hm]
    · split
      · simp [hp, hm]
      · simp [hm, ih]

theorem Memory.wf_store {m : Memory α} {k : Nat} {v : α} (hm : Memory.wf m = true) : Memory.wf (Memory.store m k v) = true := by
  induction m with
  | nil => simp [Memory.store, Memory.wf]
  | cons e m ih =>
    obtain ⟨j, u⟩ := e
    simp only [Memory.wf, Bool.and_eq_true] at hm
    simp only [Memory.store]
    split
    · rename_i h
      simp only [Memory.wf, List.all_cons, Bool.and_eq_true, decide_eq_true_eq, h, true_and]
      exact ⟨List.all_eq_true.2 fun x hx => by have := List.all_eq_true.1 hm.1 x hx; simp at this ⊢; omega, hm⟩
    · split
      · rename_i h; subst h; simp [Memory.wf, hm]
      · simp only [Memory.wf, Bool.and_eq_true]
        exact ⟨Memory.all_store hm.1 (by simp; omega), ih hm.2⟩

theorem Memory.within_store {cap : Nat} {m : Memory α} {k : Nat} {v : α} (hm : Memory.within cap m = true) (h : k < cap) :
    Memory.within cap (Memory.store m k v) = true := Memory.all_store hm (by simpa using h)

/-! ### The primitives -/

theorem memRead_eq_ok {cap : Nat} {m : Memory α} {k : Nat} {v : α} :
    memRead cap m k = .ok v ↔ k < cap ∧ Memory.load m k = some v := by
  unfold memRead
  split <;> [split; skip] <;> simp_all

theorem memRead_of_filled {cap : Nat} {m : Memory α} {k n : Nat} (h : Memory.filled m n) (hk : k < n) (hn : n ≤ cap) :
    ∃ v, memRead cap m k = .ok v ∧ Memory.load m k = some v := by
  obtain ⟨v, hv⟩ := Option.isSome_iff_exists.1 (h k hk)
  exact ⟨v, memRead_eq_ok.2 ⟨by omega, hv⟩, hv⟩

theorem memWrite_eq_ok {cap : Nat} {m m' : Memory α} {k : Nat} {v : α} :
    memWrite cap m k v = .ok m' ↔ k < cap ∧ m' = Memory.store m k v := by
  unfold memWrite
  split <;> simp_all [eq_comm]

/-- A range read answers the elements in order, and answers exactly when each of them can be read. -/
theorem memReadRange_eq_ok {cap : Nat} {m : Memory α} {k n : Nat} {vs : List α} :
    memReadRange cap m k n = .ok vs ↔ vs.length = n ∧ ∀ j, j < n → k + j < cap ∧ Memory.load m (k + j) = vs[j]? := by
  induction n generalizing k vs with
  | zero => simp [memReadRange, eq_comm]
  | succ n ih =>
    constructor
    · intro h
      simp only [memReadRange] at h
      split at h <;> [cases h; skip]
      rename_i v hv
      split at h <;> [cases h; skip]
      rename_i ws hws
      cases h
      obtain ⟨hl, hj⟩ := ih.1 hws
      refine ⟨by simp [hl], fun j hjn => ?_⟩
      cases j with
      | zero => simpa using memRead_eq_ok.1 hv
      | succ j => simpa [Nat.add_assoc, Nat.add_comm 1] using hj j (by omega)
    · rintro ⟨hl, hj⟩
      cases vs with
      | nil => simp at hl
      | cons v ws =>
        have h0 := hj 0 (by omega)
        have hv : memRead cap m k = .ok v := memRead_eq_ok.2 (by simpa using h0)
        have hws : memReadRange cap m (k + 1) n = .ok ws := ih.2
          ⟨by simpa using hl, fun j hjn => by simpa [Nat.add_assoc, Nat.add_comm 1] using hj (j + 1) (by omega)⟩
        simp [memReadRange, hv, hws]

theorem memReadRange_of_readable {cap : Nat} {m : Memory α} {k n : Nat}
    (h : ∀ j, j < n → k + j < cap ∧ (Memory.load m (k + j)).isSome = true) :
    ∃ vs, memReadRange cap m k n = .ok vs := by
  induction n generalizing k with
  | zero => exact ⟨[], rfl⟩
  | succ n ih =>
    obtain ⟨v, hv⟩ := Option.isSome_iff_exists.1 (h 0 (by omega)).2
    have h0 : memRead cap m k = .ok v := memRead_eq_ok.2 ⟨(h 0 (by omega)).1, hv⟩
    obtain ⟨vs, hvs⟩ := ih (k := k + 1) fun j hj => by
      have := h (j + 1) (by omega)
      rwa [show k + 1 + j = k + (j + 1) by omega]
    exact ⟨v :: vs, by simp [memReadRange, h0, hvs]⟩

theorem memReadRange_of_filled {cap : Nat} {m : Memory α} {n : Nat} (h : Memory.filled m n) (hn : n ≤ cap) :
    ∃ vs, memReadRange cap m 0 n = .ok vs :=
  memReadRange_of_readable fun j hj => ⟨by omega, by simpa using h j hj⟩

/-- A range write within the space answers, and then each written element reads back and each other
element is as before. -/
theorem memWriteRange_ok {cap : Nat} {m : Memory α} {k : Nat} {vs : List α} (h : k + vs.length ≤ cap) :
    ∃ m', memWriteRange cap m k vs = .ok m' ∧
      ∀ j, Memory.load m' j = if k ≤ j ∧ j < k + vs.length then vs[j - k]? else Memory.load m j := by
  induction vs generalizing m k with
  | nil =>
    refine ⟨m, rfl, fun j => ?_⟩
    rw [if_neg (by simp)]
  | cons v vs ih =>
    simp only [List.length_cons] at h
    obtain ⟨m', hm', hl⟩ := ih (m := Memory.store m k v) (k := k + 1) (by omega)
    have hw : memWrite cap m k v = .ok (Memory.store m k v) := memWrite_eq_ok.2 ⟨by omega, rfl⟩
    refine ⟨m', by simp [memWriteRange, hw, hm'], fun j => ?_⟩
    rw [hl, Memory.load_store]
    simp only [List.length_cons]
    by_cases h1 : j = k
    · subst h1; simp
    · by_cases h2 : k + 1 ≤ j ∧ j < k + 1 + vs.length
      · rw [if_pos h2, if_pos (by omega)]
        obtain ⟨d, rfl⟩ : ∃ d, j = k + 1 + d := ⟨j - (k + 1), by omega⟩
        simp [show k + 1 + d - k = d + 1 by omega]
      · rw [if_neg h2, if_neg h1, if_neg (by omega)]

theorem memWriteRange_form {cap : Nat} {m m' : Memory α} {k : Nat} {vs : List α}
    (h : memWriteRange cap m k vs = .ok m') (hm : Memory.wf m = true ∧ Memory.within cap m = true) :
    Memory.wf m' = true ∧ Memory.within cap m' = true := by
  induction vs generalizing m k with
  | nil => cases h; exact hm
  | cons v vs ih =>
    simp only [memWriteRange] at h
    split at h <;> [cases h; skip]
    rename_i m1 h1
    obtain ⟨hk, rfl⟩ := memWrite_eq_ok.1 h1
    exact ih h ⟨Memory.wf_store hm.1, Memory.within_store hm.2 hk⟩

end Sys2Proof.Machine
end

