-- ==== Sys2Proof/Laws/State.lean ====
section
/-! SUPPORT. One lemma per field for each named update of the state, so that no proof unfolds a record update. -/

namespace Sys2Proof.Machine

variable (s : State) (e : Event) (p : Phase) (rest : List Input) (c : FaultCode)

/-! ### emit -/

@[simp] theorem State.emit_cfg : (s.emit e).cfg = s.cfg := rfl
@[simp] theorem State.emit_decMode : (s.emit e).decMode = s.decMode := rfl
@[simp] theorem State.emit_decPol : (s.emit e).decPol = s.decPol := rfl
@[simp] theorem State.emit_hdrReg : (s.emit e).hdrReg = s.hdrReg := rfl
@[simp] theorem State.emit_byteAcc : (s.emit e).byteAcc = s.byteAcc := rfl
@[simp] theorem State.emit_bitCnt : (s.emit e).bitCnt = s.bitCnt := rfl
@[simp] theorem State.emit_ref : (s.emit e).ref = s.ref := rfl
@[simp] theorem State.emit_cycOpen : (s.emit e).cycOpen = s.cycOpen := rfl
@[simp] theorem State.emit_preIdx : (s.emit e).preIdx = s.preIdx := rfl
@[simp] theorem State.emit_preFound : (s.emit e).preFound = s.preFound := rfl
@[simp] theorem State.emit_outCount : (s.emit e).outCount = s.outCount := rfl
@[simp] theorem State.emit_outOvf : (s.emit e).outOvf = s.outOvf := rfl
@[simp] theorem State.emit_txN : (s.emit e).txN = s.txN := rfl
@[simp] theorem State.emit_txResult : (s.emit e).txResult = s.txResult := rfl
@[simp] theorem State.emit_phase : (s.emit e).phase = s.phase := rfl
@[simp] theorem State.emit_sidx : (s.emit e).sidx = s.sidx := rfl
@[simp] theorem State.emit_stopFlag : (s.emit e).stopFlag = s.stopFlag := rfl
@[simp] theorem State.emit_idleCnt : (s.emit e).idleCnt = s.idleCnt := rfl
@[simp] theorem State.emit_faultCode : (s.emit e).faultCode = s.faultCode := rfl
@[simp] theorem State.emit_faultPhase : (s.emit e).faultPhase = s.faultPhase := rfl
@[simp] theorem State.emit_rxb : (s.emit e).rxb = s.rxb := rfl
@[simp] theorem State.emit_txb : (s.emit e).txb = s.txb := rfl
@[simp] theorem State.emit_outb : (s.emit e).outb = s.outb := rfl
@[simp] theorem State.emit_jobb : (s.emit e).jobb = s.jobb := rfl
@[simp] theorem State.emit_midPhase : (s.emit e).midPhase = s.midPhase := rfl
@[simp] theorem State.emit_inputs : (s.emit e).inputs = s.inputs := rfl
@[simp] theorem State.emit_events : (s.emit e).events = s.events ++ [e] := rfl
@[simp] theorem State.emit_freeCtr : (s.emit e).freeCtr = s.freeCtr := rfl

/-! ### goTo -/

@[simp] theorem State.goTo_cfg : (s.goTo p).cfg = s.cfg := rfl
@[simp] theorem State.goTo_decMode : (s.goTo p).decMode = s.decMode := rfl
@[simp] theorem State.goTo_decPol : (s.goTo p).decPol = s.decPol := rfl
@[simp] theorem State.goTo_hdrReg : (s.goTo p).hdrReg = s.hdrReg := rfl
@[simp] theorem State.goTo_byteAcc : (s.goTo p).byteAcc = s.byteAcc := rfl
@[simp] theorem State.goTo_bitCnt : (s.goTo p).bitCnt = s.bitCnt := rfl
@[simp] theorem State.goTo_ref : (s.goTo p).ref = s.ref := rfl
@[simp] theorem State.goTo_cycOpen : (s.goTo p).cycOpen = s.cycOpen := rfl
@[simp] theorem State.goTo_preIdx : (s.goTo p).preIdx = s.preIdx := rfl
@[simp] theorem State.goTo_preFound : (s.goTo p).preFound = s.preFound := rfl
@[simp] theorem State.goTo_outCount : (s.goTo p).outCount = s.outCount := rfl
@[simp] theorem State.goTo_outOvf : (s.goTo p).outOvf = s.outOvf := rfl
@[simp] theorem State.goTo_txN : (s.goTo p).txN = s.txN := rfl
@[simp] theorem State.goTo_txResult : (s.goTo p).txResult = s.txResult := rfl
@[simp] theorem State.goTo_phase : (s.goTo p).phase = p := rfl
@[simp] theorem State.goTo_sidx : (s.goTo p).sidx = s.sidx := rfl
@[simp] theorem State.goTo_stopFlag : (s.goTo p).stopFlag = s.stopFlag := rfl
@[simp] theorem State.goTo_idleCnt : (s.goTo p).idleCnt = s.idleCnt := rfl
@[simp] theorem State.goTo_faultCode : (s.goTo p).faultCode = s.faultCode := rfl
@[simp] theorem State.goTo_faultPhase : (s.goTo p).faultPhase = s.faultPhase := rfl
@[simp] theorem State.goTo_rxb : (s.goTo p).rxb = s.rxb := rfl
@[simp] theorem State.goTo_txb : (s.goTo p).txb = s.txb := rfl
@[simp] theorem State.goTo_outb : (s.goTo p).outb = s.outb := rfl
@[simp] theorem State.goTo_jobb : (s.goTo p).jobb = s.jobb := rfl
@[simp] theorem State.goTo_midPhase : (s.goTo p).midPhase = false := rfl
@[simp] theorem State.goTo_inputs : (s.goTo p).inputs = s.inputs := rfl
@[simp] theorem State.goTo_events : (s.goTo p).events = s.events := rfl
@[simp] theorem State.goTo_freeCtr : (s.goTo p).freeCtr = s.freeCtr := rfl

/-! ### withInputs -/

@[simp] theorem State.withInputs_cfg : (s.withInputs rest).cfg = s.cfg := rfl
@[simp] theorem State.withInputs_decMode : (s.withInputs rest).decMode = s.decMode := rfl
@[simp] theorem State.withInputs_decPol : (s.withInputs rest).decPol = s.decPol := rfl
@[simp] theorem State.withInputs_hdrReg : (s.withInputs rest).hdrReg = s.hdrReg := rfl
@[simp] theorem State.withInputs_byteAcc : (s.withInputs rest).byteAcc = s.byteAcc := rfl
@[simp] theorem State.withInputs_bitCnt : (s.withInputs rest).bitCnt = s.bitCnt := rfl
@[simp] theorem State.withInputs_ref : (s.withInputs rest).ref = s.ref := rfl
@[simp] theorem State.withInputs_cycOpen : (s.withInputs rest).cycOpen = s.cycOpen := rfl
@[simp] theorem State.withInputs_preIdx : (s.withInputs rest).preIdx = s.preIdx := rfl
@[simp] theorem State.withInputs_preFound : (s.withInputs rest).preFound = s.preFound := rfl
@[simp] theorem State.withInputs_outCount : (s.withInputs rest).outCount = s.outCount := rfl
@[simp] theorem State.withInputs_outOvf : (s.withInputs rest).outOvf = s.outOvf := rfl
@[simp] theorem State.withInputs_txN : (s.withInputs rest).txN = s.txN := rfl
@[simp] theorem State.withInputs_txResult : (s.withInputs rest).txResult = s.txResult := rfl
@[simp] theorem State.withInputs_phase : (s.withInputs rest).phase = s.phase := rfl
@[simp] theorem State.withInputs_sidx : (s.withInputs rest).sidx = s.sidx := rfl
@[simp] theorem State.withInputs_stopFlag : (s.withInputs rest).stopFlag = s.stopFlag := rfl
@[simp] theorem State.withInputs_idleCnt : (s.withInputs rest).idleCnt = s.idleCnt := rfl
@[simp] theorem State.withInputs_faultCode : (s.withInputs rest).faultCode = s.faultCode := rfl
@[simp] theorem State.withInputs_faultPhase : (s.withInputs rest).faultPhase = s.faultPhase := rfl
@[simp] theorem State.withInputs_rxb : (s.withInputs rest).rxb = s.rxb := rfl
@[simp] theorem State.withInputs_txb : (s.withInputs rest).txb = s.txb := rfl
@[simp] theorem State.withInputs_outb : (s.withInputs rest).outb = s.outb := rfl
@[simp] theorem State.withInputs_jobb : (s.withInputs rest).jobb = s.jobb := rfl
@[simp] theorem State.withInputs_midPhase : (s.withInputs rest).midPhase = s.midPhase := rfl
@[simp] theorem State.withInputs_inputs : (s.withInputs rest).inputs = rest := rfl
@[simp] theorem State.withInputs_events : (s.withInputs rest).events = s.events := rfl
@[simp] theorem State.withInputs_freeCtr : (s.withInputs rest).freeCtr = s.freeCtr := rfl

/-! ### dropPass -/

/-- Taking a `pass` changes the inputs alone. -/
theorem State.dropPass_eq : s.dropPass = s.withInputs s.dropPass.inputs := by
  unfold State.dropPass; split <;> rfl

theorem State.dropPass_nil (h : s.inputs = []) : s.dropPass = s := by simp [State.dropPass, h]

theorem State.dropPass_pass (h : s.inputs = .pass :: rest) : s.dropPass = s.withInputs rest := by
  simp [State.dropPass, h]

theorem State.dropPass_answer {a : Answer} (h : s.inputs = .answer a :: rest) : s.dropPass = s := by
  simp [State.dropPass, h]

/-! ### faultEntry: four fields change, by these rules, and no other (60_exceptions.md R123, R129) -/

/-- Fault entry as one record update. -/
theorem faultEntry_eq : faultEntry c s =
    { s with
      faultCode := if s.faultCode = .none then c else s.faultCode
      faultPhase := if s.faultCode = .none then s.phase else s.faultPhase
      phase := if s.phase = .shutdown ∨ s.phase = .halted then s.phase else .shutdown
      midPhase := if s.phase = .shutdown ∨ s.phase = .halted then s.midPhase else false } := by
  by_cases h : s.faultCode = .none <;> by_cases h' : s.phase = .shutdown ∨ s.phase = .halted <;>
    simp [faultEntry, State.goTo, h, h']

@[simp] theorem faultEntry_cfg : (faultEntry c s).cfg = s.cfg := by rw [faultEntry_eq]
@[simp] theorem faultEntry_decMode : (faultEntry c s).decMode = s.decMode := by rw [faultEntry_eq]
@[simp] theorem faultEntry_decPol : (faultEntry c s).decPol = s.decPol := by rw [faultEntry_eq]
@[simp] theorem faultEntry_hdrReg : (faultEntry c s).hdrReg = s.hdrReg := by rw [faultEntry_eq]
@[simp] theorem faultEntry_byteAcc : (faultEntry c s).byteAcc = s.byteAcc := by rw [faultEntry_eq]
@[simp] theorem faultEntry_bitCnt : (faultEntry c s).bitCnt = s.bitCnt := by rw [faultEntry_eq]
@[simp] theorem faultEntry_ref : (faultEntry c s).ref = s.ref := by rw [faultEntry_eq]
@[simp] theorem faultEntry_cycOpen : (faultEntry c s).cycOpen = s.cycOpen := by rw [faultEntry_eq]
@[simp] theorem faultEntry_preIdx : (faultEntry c s).preIdx = s.preIdx := by rw [faultEntry_eq]
@[simp] theorem faultEntry_preFound : (faultEntry c s).preFound = s.preFound := by rw [faultEntry_eq]
@[simp] theorem faultEntry_outCount : (faultEntry c s).outCount = s.outCount := by rw [faultEntry_eq]
@[simp] theorem faultEntry_outOvf : (faultEntry c s).outOvf = s.outOvf := by rw [faultEntry_eq]
@[simp] theorem faultEntry_txN : (faultEntry c s).txN = s.txN := by rw [faultEntry_eq]
@[simp] theorem faultEntry_txResult : (faultEntry c s).txResult = s.txResult := by rw [faultEntry_eq]
theorem faultEntry_phase : (faultEntry c s).phase = if s.phase = .shutdown ∨ s.phase = .halted then s.phase else .shutdown := by rw [faultEntry_eq]
@[simp] theorem faultEntry_sidx : (faultEntry c s).sidx = s.sidx := by rw [faultEntry_eq]
@[simp] theorem faultEntry_stopFlag : (faultEntry c s).stopFlag = s.stopFlag := by rw [faultEntry_eq]
@[simp] theorem faultEntry_idleCnt : (faultEntry c s).idleCnt = s.idleCnt := by rw [faultEntry_eq]
theorem faultEntry_faultCode : (faultEntry c s).faultCode = if s.faultCode = .none then c else s.faultCode := by rw [faultEntry_eq]
theorem faultEntry_faultPhase : (faultEntry c s).faultPhase = if s.faultCode = .none then s.phase else s.faultPhase := by rw [faultEntry_eq]
@[simp] theorem faultEntry_rxb : (faultEntry c s).rxb = s.rxb := by rw [faultEntry_eq]
@[simp] theorem faultEntry_txb : (faultEntry c s).txb = s.txb := by rw [faultEntry_eq]
@[simp] theorem faultEntry_outb : (faultEntry c s).outb = s.outb := by rw [faultEntry_eq]
@[simp] theorem faultEntry_jobb : (faultEntry c s).jobb = s.jobb := by rw [faultEntry_eq]
theorem faultEntry_midPhase : (faultEntry c s).midPhase = if s.phase = .shutdown ∨ s.phase = .halted then s.midPhase else false := by rw [faultEntry_eq]
@[simp] theorem faultEntry_inputs : (faultEntry c s).inputs = s.inputs := by rw [faultEntry_eq]
@[simp] theorem faultEntry_events : (faultEntry c s).events = s.events := by rw [faultEntry_eq]
@[simp] theorem faultEntry_freeCtr : (faultEntry c s).freeCtr = s.freeCtr := by rw [faultEntry_eq]

/-- RESET leaves the state of reset under the same configuration, but for what is not the core's to reset. -/
theorem resetCore_eq : resetCore s =
    { State.resetWith s.cfg with inputs := s.inputs, events := s.events, freeCtr := s.freeCtr } := rfl

end Sys2Proof.Machine
end

