-- ==== Sys2Proof/Laws/Ops.lean ====
section
/-! SUPPORT. What each shared operation can do, said once: the inversion lemmas of the operations and of the step. -/

namespace Sys2Proof.Machine

/-! ### issue and perform -/

@[simp] theorem perform_halted {op : State → OpResult} {s : State} (h : s.phase = .halted) : perform op s = .next s := by
  simp [perform, h]

@[simp] theorem perform_running {op : State → OpResult} {s : State} (h : s.phase ≠ .halted) :
    perform op s = issue op id s := by simp [perform, h]

theorem issue_done {op : State → OpResult} {after : State → State} {s t : State} (h : op s = .done t) :
    issue op after s = .next (after t) := by simp [issue, h]

theorem issue_raised {op : State → OpResult} {after : State → State} {s t : State} {c : FaultCode} (h : op s = .raised c t) :
    issue op after s = .next (faultEntry c t) := by simp [issue, h]

/-- An issued operation answers a next state by completing or by entering a fault. -/
theorem issue_eq_next {op : State → OpResult} {after : State → State} {s t : State} (h : issue op after s = .next t) :
    (∃ u, op s = .done u ∧ t = after u) ∨ (∃ c u, op s = .raised c u ∧ t = faultEntry c u) := by
  unfold issue at h
  split at h <;> simp_all

theorem issue_ne_refused {op : State → OpResult} {after : State → State} {s : State} {r : Refusal} :
    issue op after s ≠ .refused r := by
  unfold issue
  split <;> simp

/-- It stops only where the operation stops the model. -/
theorem issue_eq_fault {op : State → OpResult} {after : State → State} {s : State} {f : Fault} :
    issue op after s = .fault f ↔ op s = .broken f := by
  unfold issue
  split <;> simp_all

/-- A driven operation answers a next state by being ignored in `HALTED`, by completing or by entering a fault. -/
theorem perform_eq_next {op : State → OpResult} {s t : State} (h : perform op s = .next t) :
    (s.phase = .halted ∧ t = s) ∨ (s.phase ≠ .halted ∧ op s = .done t) ∨
      (s.phase ≠ .halted ∧ ∃ c u, op s = .raised c u ∧ t = faultEntry c u) := by
  by_cases hp : s.phase = .halted
  · rw [perform_halted hp] at h; cases h; exact .inl ⟨hp, rfl⟩
  · rw [perform_running hp] at h
    obtain ⟨u, hu, rfl⟩ | h := issue_eq_next h
    · exact .inr (.inl ⟨hp, hu⟩)
    · exact .inr (.inr ⟨hp, h⟩)

theorem perform_ne_refused {op : State → OpResult} {s : State} {r : Refusal} : perform op s ≠ .refused r := by
  unfold perform
  split
  · simp
  · exact issue_ne_refused

theorem perform_eq_fault {op : State → OpResult} {s : State} {f : Fault} (h : perform op s = .fault f) : op s = .broken f := by
  unfold perform at h
  split at h
  · cases h
  · exact issue_eq_fault.1 h

/-! ### The preamble matcher -/

/-- A feed is one of: a no-op after found; a match; a mismatch. -/
theorem pfeedInternal_eq_ok {b : Byte} {s t : State} (h : pfeedInternal b s = .ok t) :
    (s.preFound = true ∧ t = s) ∨
    (s.preFound = false ∧ s.cfg.preRom[s.preIdx.toNat]? = some b ∧
      t = { s with preIdx := s.preIdx + 1, preFound := decide ((s.preIdx + 1).toNat = Config.preLen) }) ∨
    (s.preFound = false ∧ s.cfg.preRom[s.preIdx.toNat]? ≠ some b ∧ t = { s with preIdx := 0 }) := by
  unfold pfeedInternal at h
  split at h
  · cases h; exact .inl ⟨‹_›, rfl⟩
  · have hf : s.preFound = false := by simpa using ‹¬ s.preFound = true›
    split at h <;> [cases h; skip]
    rename_i p hp
    have hrom : s.cfg.preRom[s.preIdx.toNat]? = some p := by
      unfold romRead at hp
      split at hp <;> cases hp
      assumption
    split at h <;> cases h
    · rename_i hb; subst hb; exact .inr (.inl ⟨hf, hrom, rfl⟩)
    · rename_i hb; exact .inr (.inr ⟨hf, by rw [hrom]; simpa [eq_comm] using hb, rfl⟩)

/-- A feed stops the model only with `PRE_IDX` outside `PREROM` and nothing found. -/
theorem pfeedInternal_answers {b : Byte} {s : State} (h : s.preFound = true ∨ s.preIdx.toNat < 2) :
    ∃ t, pfeedInternal b s = .ok t := by
  unfold pfeedInternal romRead
  split
  · exact ⟨s, rfl⟩
  · have hl : s.preIdx.toNat < s.cfg.preRom.length := by
      simp only [Config.preRom, Vector.length_toList]; simp_all
    rw [List.getElem?_eq_getElem hl]
    dsimp only
    split <;> exact ⟨_, rfl⟩

/-! ### The byte assembler -/

/-- A completed byte is stored at `OUT_COUNT`, or dropped when `OUTB` is full; no other answer. -/
theorem storeByte_eq (s : State) : storeByte s = .ok
    (if s.outCount < s.cfg.rxOutCap then
      { s with outb := Memory.store s.outb s.outCount s.byteAcc, outCount := s.outCount + 1 }
    else { s with outOvf := true }) := by
  unfold storeByte memWrite
  split <;> rfl

/-- What a completed byte leaves: fed, then stored or dropped, then searching. -/
theorem completeByte_eq_done {s t : State} (h : completeByte s = .done t) :
    ∃ u, pfeedInternal s.byteAcc s = .ok u ∧ t = { (if u.outCount < u.cfg.rxOutCap then
      { u with outb := Memory.store u.outb u.outCount u.byteAcc, outCount := u.outCount + 1 }
      else { u with outOvf := true }) with decMode := .searchingHeader } := by
  unfold completeByte at h
  split at h <;> [cases h; skip]
  rename_i u hu
  rw [storeByte_eq] at h
  exact ⟨u, hu, by injection h with h; exact h.symm⟩

theorem completeByte_ne_raised {s u : State} {c : FaultCode} : completeByte s ≠ .raised c u := by
  unfold completeByte
  split <;> [simp; (split <;> simp)]

theorem collectBit_ne_raised {b : Bool} {s u : State} {c : FaultCode} : collectBit b s ≠ .raised c u := by
  unfold collectBit
  split
  · dsimp only
    split
    · exact completeByte_ne_raised
    · simp
  · simp

/-! ### The operations: what each answers -/

theorem opRxbegin_open {s : State} (h : s.cycOpen = true) : opRxbegin s = .raised .seqErr s := by simp [opRxbegin, h]

theorem opRxbegin_closed {s : State} (h : s.cycOpen = false) : opRxbegin s =
    .done { s with cycOpen := true, preIdx := 0, preFound := false, outCount := 0, outOvf := false } := by
  simp [opRxbegin, h]

theorem opRxsample_closed {i q : BitVec 16} {s : State} (h : s.cycOpen = false) :
    opRxsample i q s = .raised .seqErr s := by simp [opRxsample, h]

theorem opRxsample_searching {i q : BitVec 16} {s : State} (h : s.cycOpen = true) (hm : s.decMode = .searchingHeader) :
    opRxsample i q s = .done (searchBit (decideBit (amp s.cfg ⟨i, q⟩) s.ref.toInt .normal)
      { s with ref := BitVec.ofInt 32 (half (amp s.cfg ⟨i, q⟩)) }) := by
  simp [opRxsample, h, hm]

theorem opRxsample_collecting {i q : BitVec 16} {s : State} (h : s.cycOpen = true) (hm : s.decMode = .collectingByte) :
    opRxsample i q s = collectBit (decideBit (amp s.cfg ⟨i, q⟩) s.ref.toInt s.decPol)
      { s with ref := BitVec.ofInt 32 (half (amp s.cfg ⟨i, q⟩)) } := by
  simp [opRxsample, h, hm]

theorem opPfeed_closed {b : Byte} {s : State} (h : s.cycOpen = false) : opPfeed b s = .raised .seqErr s := by
  simp [opPfeed, h]

theorem opRxend_closed {s : State} (h : s.cycOpen = false) : opRxend s = .raised .seqErr s := by simp [opRxend, h]

theorem opTxjob_open {s : State} (h : s.cycOpen = true) : opTxjob s = .raised .seqErr s := by simp [opTxjob, h]

/-- RXSAMPLE raises only `SEQ_ERR`, outside a cycle. -/
theorem opRxsample_eq_raised {i q : BitVec 16} {s u : State} {c : FaultCode} (h : opRxsample i q s = .raised c u) :
    s.cycOpen = false ∧ c = .seqErr ∧ u = s := by
  cases ho : s.cycOpen
  · rw [opRxsample_closed ho] at h; cases h; exact ⟨rfl, rfl, rfl⟩
  · cases hm : s.decMode
    · rw [opRxsample_searching ho hm] at h; cases h
    · rw [opRxsample_collecting ho hm] at h; exact absurd h collectBit_ne_raised

theorem opPfeed_eq_done {b : Byte} {s t : State} (h : opPfeed b s = .done t) :
    s.cycOpen = true ∧ pfeedInternal b s = .ok t := by
  unfold opPfeed at h
  split at h <;> [skip; cases h]
  split at h <;> [cases h; skip]
  cases h; exact ⟨‹_›, ‹_›⟩

theorem opPfeed_eq_raised {b : Byte} {s u : State} {c : FaultCode} (h : opPfeed b s = .raised c u) :
    s.cycOpen = false ∧ c = .seqErr ∧ u = s := by
  unfold opPfeed at h
  split at h
  · split at h <;> cases h
  · cases h; simp_all

/-- RXEND completes with a report of the bytes it reads. -/
theorem opRxend_eq_done {s t : State} (h : opRxend s = .done t) :
    s.cycOpen = true ∧ ∃ bytes, memReadRange s.cfg.rxOutCap s.outb 0 s.outCount = .ok bytes ∧
      t = { heartbeat (s.emit (.report (reportOf s bytes))) with cycOpen := false } := by
  unfold opRxend at h
  split at h <;> [skip; cases h]
  split at h <;> [cases h; skip]
  cases h; exact ⟨‹_›, _, ‹_›, rfl⟩

theorem opRxend_eq_raised {s u : State} {c : FaultCode} (h : opRxend s = .raised c u) :
    s.cycOpen = false ∧ c = .seqErr ∧ u = s := by
  unfold opRxend at h
  split at h
  · split at h <;> cases h
  · cases h; simp_all

/-- Counting an idle cycle writes only the counter of free values. -/
theorem countIdle_frame (s : State) : ∃ k, (countIdle s).2 = { s with freeCtr := k } := by
  unfold countIdle
  dsimp only
  split <;> exact ⟨_, rfl⟩

/-- The count is exact where it is `HB_IDLE_LIMIT` or fits 32 bits, and no free value is drawn. -/
theorem countIdle_exact {s : State} (h : s.idleCnt.toNat + 1 = s.cfg.hbIdleLimit ∨ s.idleCnt.toNat + 1 < 2 ^ 32) :
    countIdle s = (s.idleCnt.toNat + 1, s) := if_pos h

/-- Any other count is a free value. -/
theorem countIdle_free {s : State} (h : s.idleCnt.toNat + 1 ≠ s.cfg.hbIdleLimit) (h' : ¬ s.idleCnt.toNat + 1 < 2 ^ 32) :
    countIdle s = ((Config.freeIdleCount s.freeCtr).toNat, { s with freeCtr := s.freeCtr + 1 }) :=
  if_neg fun h'' => h''.elim h h'

/-- The heartbeat counter writes only `IDLE_CNT`, the events and the counter of free values. -/
theorem heartbeat_frame (s : State) : ∃ n ev k, heartbeat s = { s with idleCnt := n, events := s.events ++ ev, freeCtr := k } := by
  have hself : s = { s with idleCnt := s.idleCnt, events := s.events ++ [], freeCtr := s.freeCtr } := by simp
  obtain ⟨k, hk⟩ := countIdle_frame s
  unfold heartbeat
  split <;> [skip; exact ⟨_, _, _, hself⟩]
  split <;> [skip; exact ⟨0, [], s.freeCtr, by simp⟩]
  dsimp only
  rw [hk]
  split
  · exact ⟨_, _, _, rfl⟩
  · exact ⟨_, [], k, by simp; rfl⟩

/-- TXJOB completes by writing the whole frame of a job that fits, or by rejecting one that does not. -/
theorem opTxjob_eq_done {s t : State} (h : opTxjob s = .done t) : s.cycOpen = false ∧
    ((jobFits s.cfg s.txN = true ∧ ∃ bytes m, memReadRange s.cfg.txMaxBytes s.jobb 0 s.txN = .ok bytes ∧
        memWriteRange s.cfg.txBufLen s.txb 0 (frame s.cfg bytes) = .ok m ∧ t = { s with txb := m, txResult := .ok }) ∨
      (jobFits s.cfg s.txN = false ∧ s.cfg.txSizePolicy = .rejectContinue ∧ t = { s with txResult := .size })) := by
  unfold opTxjob at h
  split at h <;> [cases h; skip]
  refine ⟨by simp_all, ?_⟩
  split at h
  · unfold encodeJob at h
    split at h <;> [cases h; skip]
    split at h <;> [cases h; skip]
    cases h
    exact .inl ⟨‹_›, _, _, ‹_›, ‹_›, rfl⟩
  · unfold rejectJob at h
    split at h <;> cases h
    exact .inr ⟨by simp_all, ‹_›, rfl⟩

/-- TXJOB raises `SEQ_ERR` inside a cycle, and `TX_SIZE` for an oversize job under `FATAL`, with `TX_RESULT = SIZE`. -/
theorem opTxjob_eq_raised {s u : State} {c : FaultCode} (h : opTxjob s = .raised c u) :
    (s.cycOpen = true ∧ c = .seqErr ∧ u = s) ∨
    (s.cycOpen = false ∧ jobFits s.cfg s.txN = false ∧ s.cfg.txSizePolicy = .fatal ∧ c = .txSize ∧
      u = { s with txResult := .size }) := by
  unfold opTxjob at h
  split at h
  · cases h; exact .inl ⟨‹_›, rfl, rfl⟩
  · split at h
    · unfold encodeJob at h
      split at h <;> [cases h; skip]
      split at h <;> cases h
    · unfold rejectJob at h
      split at h <;> cases h
      exact .inr ⟨by simp_all, by simp_all, ‹_›, rfl, rfl⟩

/-- The frame of a job has the length of the transmit buffer, when it fits. -/
theorem frame_length {c : Config} {bytes : List Byte} (h : jobFits c bytes.length = true) :
    (frame c bytes).length = c.txBufLen := by
  have hu : ∀ b, (unitSymbols c b).length = 20 := fun b => by simp [unitSymbols, bitsMsbFirst]
  have hr : ∀ bs : List Byte, (repetition c bs).length = 20 * bs.length := by
    intro bs
    induction bs with
    | nil => rfl
    | cons b bs ih =>
      have : (repetition c (b :: bs)).length = (unitSymbols c b).length + (repetition c bs).length := by
        simp [repetition]
      rw [this, hu, ih, List.length_cons]; omega
  have h3 : ∀ n : Nat, ((List.replicate n (repetition c bytes)).flatten).length = n * (20 * bytes.length) := by
    intro n; simp [hr]
  simp only [jobFits, Bool.and_eq_true, decide_eq_true_eq] at h
  simp only [frame, List.length_append, List.length_replicate, h3, usedSlots, Config.txRepeat] at h ⊢
  omega

end Sys2Proof.Machine
end

