-- ==== Sys2Proof/Laws/Codec.lean ====
section
/-! SUPPORT. The laws of the codec's arithmetic, of the shift registers, and of the symbol lists that make up a frame. -/

namespace Sys2Proof.Machine

/-- The checks of a well-formed configuration, as one conjunction. -/
theorem config_wf_iff (c : Config) : c.wf = true ↔ c.ampShift ≤ 15 ∧ 1 ≤ c.rxBufLen ∧ 1 ≤ c.rxOutCap ∧ 1 ≤ c.txBufLen ∧
    1 ≤ c.txMaxBytes ∧ 1 ≤ c.symMag ∧ c.symMag ≤ 32767 ∧ 1 ≤ c.guardHigh ∧ c.guardHigh ≤ 32767 ∧ -32768 ≤ c.idleLow ∧
    c.idleLow ≤ -1 ∧ c.samplesPerBit = 1 ∧ 1 ≤ c.hbIdleLimit := by
  simp [Config.wf, and_assoc]

/-! ### Integers in a register -/

theorem toInt_ofInt_16 (v : Int) (h1 : -32768 ≤ v) (h2 : v ≤ 32767) : (BitVec.ofInt 16 v).toInt = v := by
  rw [BitVec.toInt_ofInt, Int.bmod_eq_of_le] <;> norm_num <;> omega

theorem toInt_ofInt_32 (v : Int) (h1 : -2 ^ 31 ≤ v) (h2 : v < 2 ^ 31) : (BitVec.ofInt 32 v).toInt = v := by
  rw [BitVec.toInt_ofInt, Int.bmod_eq_of_le] <;> norm_num <;> omega

/-- The number of two fields side by side. -/
theorem toNat_append_eq {n m : Nat} (x : BitVec n) (y : BitVec m) : (x ++ y).toNat = y.toNat + 2 ^ m * x.toNat := by
  rw [BitVec.toNat_append, ← Nat.shiftLeft_add_eq_or_of_lt y.isLt, Nat.shiftLeft_eq]; ring

/-! ### The amplitude and its half -/

/-- Half an amplitude is within one of twice itself, toward zero. -/
theorem half_bound (a : Int) : (0 ≤ a → 2 * half a ≤ a ∧ a < 2 * half a + 2) ∧ (a < 0 → a ≤ 2 * half a ∧ 2 * half a - 2 < a) := by
  unfold half
  refine ⟨fun h => ?_, fun h => ?_⟩
  · rw [Int.tdiv_eq_ediv_of_nonneg h]; omega
  · have := Int.tdiv_eq_ediv_of_nonneg (b := 2) (show 0 ≤ -a by omega)
    rw [Int.neg_tdiv] at this; omega

theorem half_neg (a : Int) : half (-a) = -half a := by simp [half, Int.neg_tdiv]

/-- `DECIDE` as a disjunction over the polarity. -/
theorem decideBit_iff (a r : Int) (p : Polarity) :
    decideBit a r p = true ↔ (p = .normal ∧ r ≤ a) ∨ (p = .inverted ∧ a ≤ r) := by
  cases p <;> simp [decideBit]

/-! ### The shift registers -/

theorem shiftIn_eq {n : Nat} (r : BitVec n) (b : Bool) : shiftIn r b = BitVec.ofNat n (2 * r.toNat + if b then 1 else 0) := by
  apply BitVec.eq_of_toNat_eq
  have : (r.toNat <<< 1 ||| b.toNat) = 2 * r.toNat + b.toNat := by
    rw [← Nat.shiftLeft_add_eq_or_of_lt (by cases b <;> simp), Nat.shiftLeft_eq]; ring
  unfold shiftIn
  rw [BitVec.toNat_or, BitVec.toNat_shiftLeft, BitVec.toNat_ofNat, BitVec.toNat_ofNat, ← Nat.or_mod_two_pow, this]
  cases b <;> simp

/-- The first `j` bits of a field, shifted into a register: the register moves up and the field's high bits follow. -/
theorem shiftIn_bits {n : Nat} (v a : BitVec n) (j : Nat) (hj : j ≤ n) :
    (((bitsMsbFirst v).take j).foldl shiftIn a).toNat = (a.toNat * 2 ^ j + v.toNat / 2 ^ (n - j)) % 2 ^ n := by
  induction j with
  | zero =>
    simp
    rw [Nat.div_eq_of_lt v.isLt, Nat.add_zero, Nat.mod_eq_of_lt a.isLt]
  | succ j ih =>
    have ht : (bitsMsbFirst v).take (j + 1) = (bitsMsbFirst v).take j ++ [v.getLsbD (n - 1 - j)] := by
      rw [List.take_add_one]; simp [bitsMsbFirst, List.getElem?_range (show j < n by omega)]
    rw [ht, List.foldl_append]
    simp only [List.foldl_cons, List.foldl_nil]
    rw [shiftIn_eq, BitVec.toNat_ofNat, ih (by omega)]
    have hb : (if v.getLsbD (n - 1 - j) = true then 1 else 0) = v.toNat / 2 ^ (n - 1 - j) % 2 := by
      rw [BitVec.getLsbD, Nat.testBit_eq_decide_div_mod_eq]
      simp; split <;> omega
    rw [hb]
    have h1 : n - j = (n - 1 - j) + 1 := by omega
    have h2 : n - (j + 1) = n - 1 - j := by omega
    rw [h2, h1, pow_succ, ← Nat.div_div_eq_div_mul]
    generalize v.toNat / 2 ^ (n - 1 - j) = d
    rw [Nat.add_mod, Nat.mul_mod, Nat.mod_mod, ← Nat.mul_mod, ← Nat.add_mod]
    congr 1
    rw [pow_succ]
    have := Nat.div_add_mod d 2
    nlinarith

/-! ### Feeding and storing -/

/-- A feed writes only the matcher's two registers. -/
theorem pfeedInternal_frame {b : Byte} {s t : State} (h : pfeedInternal b s = .ok t) :
    t = { s with preIdx := t.preIdx, preFound := t.preFound } := by
  obtain ⟨_, rfl⟩ | ⟨_, _, rfl⟩ | ⟨_, _, rfl⟩ := pfeedInternal_eq_ok h <;> rfl

/-- One bit in `SEARCHING_HEADER` writes only four registers. -/
theorem searchBit_frame (b : Bool) (s : State) :
    ∃ m p h c, searchBit b s = { s with decMode := m, decPol := p, hdrReg := h, bitCnt := c } := by
  unfold searchBit
  split
  · exact ⟨_, _, _, _, rfl⟩
  · exact ⟨s.decMode, s.decPol, _, s.bitCnt, rfl⟩

/-- One bit in `COLLECTING_BYTE` writes only these, and `OUTB` at most at `OUT_COUNT`, with the count. -/
theorem collectBit_frame {b : Bool} {s t : State} (h : collectBit b s = .done t) :
    ∃ m acc n pi pf oc ov ob,
      t = { s with decMode := m, byteAcc := acc, bitCnt := n, preIdx := pi, preFound := pf, outCount := oc, outOvf := ov, outb := ob } ∧
      (∀ k, k ≠ s.outCount → Memory.load ob k = Memory.load s.outb k) ∧ (oc = s.outCount → ob = s.outb) := by
  unfold collectBit at h
  split at h <;> [skip; cases h]
  dsimp only at h
  split at h
  · obtain ⟨u, hu, rfl⟩ := completeByte_eq_done h
    rw [pfeedInternal_frame hu]
    by_cases hc : s.outCount < s.cfg.rxOutCap
    · simp only [hc, if_true]
      exact ⟨_, _, _, _, _, _, _, _, rfl, fun k hk => Memory.load_store_other _ _ _ hk, by simp⟩
    · simp only [hc, if_false]
      exact ⟨_, _, _, _, _, _, _, _, rfl, by simp⟩
  · cases h
    exact ⟨s.decMode, _, _, s.preIdx, s.preFound, s.outCount, s.outOvf, s.outb, rfl, by simp⟩

/-! ### Symbol lists -/

theorem unitSymbols_length (c : Config) (b : Byte) : (unitSymbols c b).length = 20 := by simp [unitSymbols, bitsMsbFirst]

theorem repetition_length (c : Config) (bs : List Byte) : (repetition c bs).length = 20 * bs.length := by
  induction bs with
  | nil => rfl
  | cons b bs ih =>
    have : (repetition c (b :: bs)).length = (unitSymbols c b).length + (repetition c bs).length := by simp [repetition]
    rw [this, unitSymbols_length, ih, List.length_cons]; omega

theorem repetition_append (c : Config) (xs ys : List Byte) :
    repetition c (xs ++ ys) = repetition c xs ++ repetition c ys := by simp [repetition]

/-- The symbols of byte `j` stand in its unit. -/
theorem repetition_get (c : Config) (bs : List Byte) (j k : Nat) (b : Byte) (hj : bs[j]? = some b) (hk : k < 20) :
    (repetition c bs)[20 * j + k]? = (unitSymbols c b)[k]? := by
  induction bs generalizing j with
  | nil => simp at hj
  | cons a bs ih =>
    have e : repetition c (a :: bs) = unitSymbols c a ++ repetition c bs := by simp [repetition]
    rw [e]
    cases j with
    | zero =>
      simp at hj; subst hj
      rw [List.getElem?_append_left (by rw [unitSymbols_length]; omega)]; simp
    | succ j =>
      rw [List.getElem?_append_right (by rw [unitSymbols_length]; omega), unitSymbols_length]
      rw [show 20 * (j + 1) + k - 20 = 20 * j + k by omega]
      exact ih j (by simpa using hj)

/-- Copy `r` of a list repeated `n` times. -/
theorem replicate_flatten_get {α : Type} (l : List α) (n r x : Nat) (hr : r < n) (hx : x < l.length) :
    (List.replicate n l).flatten[r * l.length + x]? = l[x]? := by
  induction n generalizing r with
  | zero => omega
  | succ n ih =>
    rw [List.replicate_succ, List.flatten_cons]
    cases r with
    | zero => rw [List.getElem?_append_left (by omega)]; simp
    | succ r =>
      rw [List.getElem?_append_right (by nlinarith)]
      rw [show (r + 1) * l.length + x - l.length = r * l.length + x by rw [Nat.add_mul]; omega]
      exact ih r (by omega)

end Sys2Proof.Machine
end

