-- ==== Sys2Proof/Laws/PerInstr.lean ====
section
/-! SUPPORT. The statements made per instruction. Family `TableRow`: the word of each instruction agrees with its row of
spec/opcode_table.json, its operands in the bits the row leaves open. -/

namespace Sys2Proof.Laws

/-- A row of spec/opcode_table.json: a word belongs to it when its bits under the mask are the pattern's. -/
structure OpRow where
  mnemonic : String
  pattern : OpWord
  mask : OpWord
  deriving DecidableEq, Repr

/-- The row of each instruction, copied from the table. -/
def rowOf : Instr → OpRow
  | .reset => ⟨"RESET", 0x000000000, 0xFFFFFFFFF⟩
  | .rxbegin => ⟨"RXBEGIN", 0x100000000, 0xFFFFFFFFF⟩
  | .rxsample _ _ => ⟨"RXSAMPLE", 0x200000000, 0xF00000000⟩
  | .rxend => ⟨"RXEND", 0x300000000, 0xFFFFFFFFF⟩
  | .txjob => ⟨"TXJOB", 0x400000000, 0xFFFFFFFFF⟩
  | .pfeed _ => ⟨"PFEED", 0x500000000, 0xFFFFFFF00⟩
  | .stopreq => ⟨"STOPREQ", 0x600000000, 0xFFFFFFFFF⟩

/-- The rows of the table, one for each constructor. -/
def tableRows : List OpRow :=
  [.reset, .rxbegin, .rxsample 0 0, .rxend, .txjob, .pfeed 0, .stopreq].map rowOf

/-- No word belongs to two rows: some bit under both masks tells them apart. -/
theorem tableRows_disjoint : tableRows.Pairwise fun r r' => (r.pattern ^^^ r'.pattern) &&& r.mask &&& r'.mask ≠ 0 := by
  decide

namespace TableRow

/-- The instruction's word belongs to its row, and the operands are read back from the bits the table gives them. -/
def Statement (i : Instr) : Prop :=
  encode i &&& (rowOf i).mask = (rowOf i).pattern ∧
  match i with
  | .rxsample si sq => (encode i).extractLsb' 0 16 = si ∧ (encode i).extractLsb' 16 16 = sq
  | .pfeed b => (encode i).extractLsb' 0 8 = b
  | .reset => True
  | .rxbegin => True
  | .rxend => True
  | .txjob => True
  | .stopreq => True

theorem reset : Statement .reset := by unfold Statement; decide

theorem rxbegin : Statement .rxbegin := by unfold Statement; decide

theorem rxsample (si sq : BitVec 16) : Statement (.rxsample si sq) := by
  refine ⟨?_, ?_, ?_⟩ <;> simp only [rowOf, encode, opWord] <;> apply BitVec.eq_of_getLsbD_eq <;> intro k hk <;>
    simp only [BitVec.getLsbD_and, BitVec.getLsbD_append, BitVec.getLsbD_extractLsb'] <;> interval_cases k <;> simp

theorem rxend : Statement .rxend := by unfold Statement; decide

theorem txjob : Statement .txjob := by unfold Statement; decide

theorem pfeed (b : Byte) : Statement (.pfeed b) := by
  refine ⟨?_, ?_⟩ <;> simp only [rowOf, encode, opWord] <;> apply BitVec.eq_of_getLsbD_eq <;> intro k hk <;>
    simp only [BitVec.getLsbD_and, BitVec.getLsbD_append, BitVec.getLsbD_extractLsb'] <;> interval_cases k <;> simp

theorem stopreq : Statement .stopreq := by unfold Statement; decide

end TableRow

end Sys2Proof.Laws
end

