-- ==== Sys2Proof/Laws/Step.lean ====
section
/-! SUPPORT. What a step can do, said once: the inversion lemmas of `exec`, of the phase machine and of `step`, what every
issued operation leaves alone, and how a run of steps and a trace of operations are cut into parts. -/

namespace Sys2Proof.Machine

/-- The operations that `exec` performs: every one but RESET. -/
def IsOp (op : State → OpResult) : Prop :=
  op = opRxbegin ∨ (∃ i q, op = opRxsample i q) ∨ op = opRxend ∨ op = opTxjob ∨ (∃ b, op = opPfeed b) ∨ op = opStopreq

/-- An instruction answers a next state by resetting, by being ignored in `HALTED`, by completing or by entering a fault. -/
theorem exec_eq_next {i : Instr} {s t : State} (h : exec i s = .next t) :
    (i = .reset ∧ t = resetCore s) ∨ (s.phase = .halted ∧ t = s) ∨
    (i ≠ .reset ∧ s.phase ≠ .halted ∧ ∃ op, IsOp op ∧
      (op s = .done t ∨ ∃ c u, op s = .raised c u ∧ t = faultEntry c u)) := by
  have key : ∀ op, IsOp op → i ≠ .reset → perform op s = .next t →
      (i = .reset ∧ t = resetCore s) ∨ (s.phase = .halted ∧ t = s) ∨
      (i ≠ .reset ∧ s.phase ≠ .halted ∧ ∃ op, IsOp op ∧
        (op s = .done t ∨ ∃ c u, op s = .raised c u ∧ t = faultEntry c u)) := by
    intro op ho hi hop
    obtain h1 | ⟨hp, h1⟩ | ⟨hp, c, u, h1, h2⟩ := perform_eq_next hop
    · exact .inr (.inl h1)
    · exact .inr (.inr ⟨hi, hp, op, ho, .inl h1⟩)
    · exact .inr (.inr ⟨hi, hp, op, ho, .inr ⟨c, u, h1, h2⟩⟩)
  cases i with
  | reset => cases h; exact .inl ⟨rfl, rfl⟩
  | rxbegin => exact key _ (.inl rfl) (by simp) h
  | rxsample a b => exact key _ (.inr (.inl ⟨_, _, rfl⟩)) (by simp) h
  | rxend => exact key _ (.inr (.inr (.inl rfl))) (by simp) h
  | txjob => exact key _ (.inr (.inr (.inr (.inl rfl)))) (by simp) h
  | pfeed b => exact key _ (.inr (.inr (.inr (.inr (.inl ⟨_, rfl⟩))))) (by simp) h
  | stopreq => exact key _ (.inr (.inr (.inr (.inr (.inr rfl))))) (by simp) h

/-- An operation that faults finds the state as it was, or as TXJOB leaves it after an oversize job. -/
theorem op_raised {op : State → OpResult} (ho : IsOp op) {s u : State} {c : FaultCode} (h : op s = .raised c u) :
    c ≠ .none ∧ (u = s ∨ (jobFits s.cfg s.txN = false ∧ u = { s with txResult := .size })) := by
  rcases ho with rfl | ⟨a, b, rfl⟩ | rfl | rfl | ⟨b, rfl⟩ | rfl
  · unfold opRxbegin at h; split at h <;> cases h; simp
  · obtain ⟨_, rfl, rfl⟩ := opRxsample_eq_raised h; simp
  · obtain ⟨_, rfl, rfl⟩ := opRxend_eq_raised h; simp
  · obtain ⟨_, rfl, rfl⟩ | ⟨_, hj, _, rfl, rfl⟩ := opTxjob_eq_raised h
    · simp
    · simp [hj]
  · obtain ⟨_, rfl, rfl⟩ := opPfeed_eq_raised h; simp
  · cases h

/-- What a completed operation leaves alone, whichever it is; it never clears `STOP_FLAG`. -/
theorem op_keeps {op : State → OpResult} (ho : IsOp op) {s t : State} (h : op s = .done t) :
    (t.cfg = s.cfg ∧ t.phase = s.phase ∧ t.midPhase = s.midPhase ∧ t.rxb = s.rxb ∧ t.jobb = s.jobb ∧ t.txN = s.txN ∧
      t.sidx = s.sidx ∧ t.inputs = s.inputs) ∧
    (t.faultCode = s.faultCode ∧ t.faultPhase = s.faultPhase) ∧ (s.stopFlag = true → t.stopFlag = true) := by
  rcases ho with rfl | ⟨a, b, rfl⟩ | rfl | rfl | ⟨b, rfl⟩ | rfl
  · unfold opRxbegin at h; split at h <;> cases h; simp
  · cases hc : s.cycOpen
    · rw [opRxsample_closed hc] at h; cases h
    · cases hm : s.decMode
      · rw [opRxsample_searching hc hm] at h; cases h
        obtain ⟨m, p, hh, c, he⟩ := searchBit_frame (decideBit (amp s.cfg ⟨a, b⟩) s.ref.toInt .normal)
          { s with ref := BitVec.ofInt 32 (half (amp s.cfg ⟨a, b⟩)) }
        rw [he]; simp
      · rw [opRxsample_collecting hc hm] at h
        obtain ⟨m, acc, n, pi, pf, oc, ov, ob, rfl, h1, h2⟩ := collectBit_frame h
        simp
  · obtain ⟨_, bytes, _, rfl⟩ := opRxend_eq_done h
    obtain ⟨n, ev, k, he⟩ := heartbeat_frame (s.emit (.report (reportOf s bytes)))
    simp [he]
  · obtain ⟨_, ⟨hj, bytes, m, h1, h2, rfl⟩ | ⟨hj, hq, rfl⟩⟩ := opTxjob_eq_done h <;> simp
  · obtain ⟨_, h⟩ := opPfeed_eq_done h
    rw [pfeedInternal_frame h]; simp
  · cases h; simp

/-- An illegal word enters the fault `BAD_OP`, or is ignored in `HALTED`. -/
theorem illegalWord_eq (s : State) : illegalWord s = .next (if s.phase = .halted then s else faultEntry .badOp s) := by
  unfold illegalWord
  split
  · rw [perform_halted ‹_›]
  · rw [perform_running ‹_›]; rfl

/-! ### The phase machine -/

/-- Which phase waits on which request. -/
theorem pendingRequest_eq_some {s : State} {r : Request} (h : pendingRequest s = some r) :
    (s.phase = .boot ∧ r = .configure) ∨ (s.phase = .acqRx ∧ r = .acquireReceive) ∨
    (s.phase = .hostRead ∧ s.midPhase = false ∧ r = .hostRead) ∨
    (s.phase = .encode ∧ s.midPhase = false ∧ r = .acquireTransmit) ∨ (s.phase = .submitTx ∧ r = .submitTransmit) ∨
    (s.phase = .shutdown ∧ r = .shutdown) := by
  unfold pendingRequest at h
  cases hp : s.phase <;> cases hm : s.midPhase <;> simp_all

theorem job_eq_ok {s t : State} {bytes : List Byte} (h : s.job bytes = .ok t) :
    ∃ m, memWriteRange s.cfg.txMaxBytes s.jobb 0 bytes = .ok m ∧ t = { s with txN := bytes.length, jobb := m } := by
  unfold State.job at h
  split at h <;> cases h
  exact ⟨_, ‹_›, rfl⟩

/-- A wait that answers a next state stays where it is. -/
theorem wait_eq_next {r : Request} {s t : State} (h : wait r s = .next t) : t = s := by
  unfold wait at h
  split at h <;> cases h; rfl

/-! ### The step -/

theorem step_op {s : State} {w : OpWord} {rest : List Input} (hw : s.cfg.wf = true) (h : s.inputs = .op w :: rest) :
    step s = runWord w (s.withInputs rest) := by
  simp only [step, hw, if_true, h]

theorem step_advance {s : State} (hw : s.cfg.wf = true) (h : ∀ w rest, s.inputs ≠ .op w :: rest) : step s = advance s := by
  cases hin : s.inputs with
  | nil => simp only [step, hw, if_true, hin]
  | cons x rest =>
    cases x with
    | op w => exact absurd hin (h w rest)
    | answer a => simp only [step, hw, if_true, hin]
    | pass => simp only [step, hw, if_true, hin]

/-- The answer the core waits for is next: it is taken. -/
theorem step_answer {s : State} {r : Request} {a : Answer} {rest : List Input} (hw : s.cfg.wf = true)
    (hp : pendingRequest s = some r) (hin : s.inputs = .answer a :: rest) :
    step s = takeAnswer r a (s.withInputs rest) := by
  rw [step_advance hw (by simp [hin])]; unfold advance; rw [hp, hin]

/-- The core waits and no answer comes first. -/
theorem step_wait {s : State} {r : Request} (hw : s.cfg.wf = true) (hp : pendingRequest s = some r)
    (hop : ∀ w rest, s.inputs ≠ .op w :: rest) (ha : ∀ a rest, s.inputs ≠ .answer a :: rest) :
    step s = wait r s.dropPass := by
  rw [step_advance hw hop]
  unfold advance
  split
  · exact absurd ‹_› (ha _ _)
  · simp_all
  · simp_all

/-- The phase waits for nothing: it acts, whatever comes first but an operation word. -/
theorem step_quiet {s : State} (hw : s.cfg.wf = true) (hp : pendingRequest s = none)
    (hop : ∀ w rest, s.inputs ≠ .op w :: rest) : step s = phaseAction s.dropPass := by
  rw [step_advance hw hop]
  unfold advance
  split <;> simp_all

theorem LeavesInputs.no_op {s : State} {ins : List Input} (h : LeavesInputs s ins) : ∀ w rest, s.inputs ≠ .op w :: rest := by
  obtain ⟨h, -⟩ | h | ⟨a, r, h, -⟩ := h <;> simp [h]

/-- What is left is the inputs after a `pass` is taken. -/
theorem LeavesInputs.dropPass {s : State} {ins : List Input} (h : LeavesInputs s ins) : s.dropPass = s.withInputs ins := by
  obtain ⟨h, rfl⟩ | h | ⟨a, r, h, rfl⟩ := h
  · rw [State.dropPass_nil s h]; simp only [State.withInputs, ← h]
  · exact State.dropPass_pass s ins h
  · rw [State.dropPass_answer s r h]; simp only [State.withInputs, ← h]

/-- A step answers a next state in one of four ways: an operation word runs, an answer is taken, a wait goes on, or the phase
acts; `rest` is what is left of the inputs. -/
theorem step_eq_next {s t : State} (h : step s = .next t) : s.cfg.wf = true ∧
    ((∃ w rest, s.inputs = .op w :: rest ∧ runWord w (s.withInputs rest) = .next t) ∨
    ∃ rest, (∀ w r, s.inputs ≠ .op w :: r) ∧
      ((∃ r a, pendingRequest s = some r ∧ s.inputs = .answer a :: rest ∧ takeAnswer r a (s.withInputs rest) = .next t) ∨
      (∃ r, pendingRequest s = some r ∧ (s.inputs = rest ∨ s.inputs = .pass :: rest) ∧ (∀ a l, s.inputs ≠ .answer a :: l) ∧
        t = s.withInputs rest) ∨
      (pendingRequest s = none ∧ (s.inputs = rest ∨ s.inputs = .pass :: rest) ∧ phaseAction (s.withInputs rest) = .next t))) := by
  unfold step at h
  split at h <;> [skip; cases h]
  refine ⟨‹_›, ?_⟩
  split at h
  · exact .inl ⟨_, _, ‹_›, h⟩
  · rename_i hop
    unfold advance at h
    have hl : ∃ rest, (s.inputs = rest ∨ s.inputs = .pass :: rest) ∧ s.dropPass = s.withInputs rest := by
      unfold State.dropPass
      split
      · exact ⟨_, .inr ‹_›, rfl⟩
      · exact ⟨s.inputs, .inl rfl, rfl⟩
    obtain ⟨rest, hl, he⟩ := hl
    right
    split at h
    · exact ⟨_, fun w r hh => hop w r hh, .inl ⟨_, _, ‹_›, ‹_›, h⟩⟩
    · rename_i hn
      exact ⟨rest, fun w r hh => hop w r hh, .inr (.inl ⟨_, ‹_›, hl, fun a l hh => hn a l hh, he ▸ wait_eq_next h⟩)⟩
    · exact ⟨rest, fun w r hh => hop w r hh, .inr (.inr ⟨‹_›, hl, he ▸ h⟩)⟩

/-! ### Runs and traces -/

theorem core_run_zero (M : Host.Core) (s : M.State) : Host.Core.run M 0 s = .next s := by simp only [Host.Core.run]

theorem core_run_succ (M : Host.Core) (n : Nat) (s t : M.State) (h : M.step s = .next t) :
    Host.Core.run M (n + 1) s = Host.Core.run M n t := by
  simp only [Host.Core.run, h]

theorem execList_append (xs ys : List Instr) (s t : State) (h : execList xs s = .next t) :
    execList (xs ++ ys) s = execList ys t := by
  induction xs generalizing s with
  | nil => cases h; rfl
  | cons x xs ih =>
    simp only [List.cons_append, execList] at h ⊢
    split at h <;> simp_all

end Sys2Proof.Machine
end

