-- ==== Sys2Proof/Tests/Slice0.lean ====
section
/-! SUPPORT. The model's own tests: the checks of a configuration, decoding of words written out from the spec, one-step
tests with the numbers of spec/95_test_vectors.md, and for every obligation with hypotheses states and operands that meet
them. -/

namespace Sys2Proof.Tests

open Sys2Proof Sys2Proof.Machine

/-! ### Config.wf: one ill-formed configuration for each check (00_scope.md R6, R11, R12) -/

theorem smoke_specExample_wf : Config.specExample.wf = true := by decide
theorem smoke_ampShift : { Config.specExample with ampShift := 16 }.wf = false := by decide
theorem smoke_rxBufLen : { Config.specExample with rxBufLen := 0 }.wf = false := by decide
theorem smoke_rxOutCap : { Config.specExample with rxOutCap := 0 }.wf = false := by decide
theorem smoke_txBufLen : { Config.specExample with txBufLen := 0 }.wf = false := by decide
theorem smoke_txMaxBytes : { Config.specExample with txMaxBytes := 0 }.wf = false := by decide
theorem smoke_symMag_low : { Config.specExample with symMag := 0 }.wf = false := by decide
theorem smoke_symMag_high : { Config.specExample with symMag := 32768 }.wf = false := by decide
theorem smoke_guardHigh_low : { Config.specExample with guardHigh := 0 }.wf = false := by decide
theorem smoke_guardHigh_high : { Config.specExample with guardHigh := 32768 }.wf = false := by decide
theorem smoke_idleLow_low : { Config.specExample with idleLow := -32769 }.wf = false := by decide
theorem smoke_idleLow_high : { Config.specExample with idleLow := 0 }.wf = false := by decide
theorem smoke_samplesPerBit : { Config.specExample with samplesPerBit := 2 }.wf = false := by decide
theorem smoke_hbIdleLimit : { Config.specExample with hbIdleLimit := 0 }.wf = false := by decide

/-! ### Decoding: words written bit by bit, the four bits of OPC and then the 32 of ARG (30_encoding.md R58, R59, R62) -/

theorem test_decode_reset : decode 0b0000_00000000000000000000000000000000 = .ok .reset := by decide
theorem test_decode_rxbegin : decode 0b0001_00000000000000000000000000000000 = .ok .rxbegin := by decide
/-- V4.0: (1000, -7) is the sample word 0xFFF903E8. -/
theorem test_decode_rxsample : decode 0b0010_1111111111111001_0000001111101000 = .ok (.rxsample 1000 (-7)) := by decide
theorem test_decode_rxend : decode 0b0011_00000000000000000000000000000000 = .ok .rxend := by decide
theorem test_decode_txjob : decode 0b0100_00000000000000000000000000000000 = .ok .txjob := by decide
/-- 95_test_vectors.md section 1: `PFEED 0xB2`. -/
theorem test_decode_pfeed : decode 0b0101_000000000000000000000000_10110010 = .ok (.pfeed 0xB2) := by decide
theorem test_decode_stopreq : decode 0b0110_00000000000000000000000000000000 = .ok .stopreq := by decide
/-- V5.9. -/
theorem test_decode_pfeed_high_bits : decode 0b0101_000000000000000000000001_10100001 = .error .nonzeroMustBeZero := by decide
theorem test_decode_reserved : decode 0b0111_00000000000000000000000000000000 = .error .reservedOpc := by decide
theorem test_decodeTableWord : decodeTableWord 40 0x2FFF903E8 = some (.rxsample 1000 (-7)) := by decide
theorem test_decodeTableWord_above : decodeTableWord 40 0x1000000000 = none := by decide
/-- 30_encoding.md R70. -/
theorem test_readLine : readLine "RXSAMPLE 1000, -7 ; a comment".toList = some (.rxsample 1000 (-7)) ∧
    readLine "PFEED 0xA1".toList = some (.pfeed 0xA1) ∧ traceLine (.rxsample 1000 (-7)) = "RXSAMPLE 1000, -7" := by decide

/-! ### Small states -/

/-- The state of an outcome. -/
def after (o : Host.Outcome State Fault Refusal) : Option State :=
  match o with
  | .next s => some s
  | .fault _ => none
  | .refused _ => none

/-- The refusal of an outcome. -/
def refusal (o : Host.Outcome State Fault Refusal) : Option Refusal :=
  match o with
  | .next _ => none
  | .fault _ => none
  | .refused r => some r

/-- Reset, inside an open cycle. -/
def inCycle : State := { State.reset with cycOpen := true }

/-- Reset, in a phase. -/
def at_ (p : Phase) : State := { State.reset with phase := p }

/-- Collecting a byte, `n` bits in. -/
def collecting (n : BitVec 4) (acc : Byte) (r : BitVec 32) (p : Polarity) : State :=
  { inCycle with decMode := .collectingByte, decPol := p, bitCnt := n, byteAcc := acc, ref := r }

/-- Reset, with a job. -/
def withJob (bytes : Memory Byte) : State := { State.reset with txN := bytes.length, jobb := bytes }

/-- Reset, with the configuration changed. -/
def withCfg (c : Config) : State := State.resetWith c

/-! ### One step each: the numbers of 95_test_vectors.md -/

/-- V4.5. -/
theorem test_rxsample_first : (after (exec (.rxsample (-1000) 5) inCycle)).map (fun s => (s.hdrReg, s.ref, rd 0 s)) =
    some (0x000, BitVec.ofInt 32 (-8000), 0x20) := by decide
/-- V4.1, sample 20. -/
theorem test_rxsample_byte : (after (exec (.rxsample (-1000) (-1000)) (collecting 7 0x1E 8000 .normal))).map
    (fun s => (s.bitCnt, s.outCount, Memory.load s.outb 0, rd 0 s)) = some (8, 1, some 0x3C, 0x20) := by decide
/-- V5.10: RXBEGIN leaves the decoder alone. -/
theorem test_rxbegin : (after (exec .rxbegin { collecting 4 0x1B 8000 .normal with cycOpen := false, preIdx := 1, outCount := 1 })).map
    (fun s => (s.byteAcc, s.bitCnt, s.preIdx, s.outCount, rd 0 s)) = some (0x1B, 4, 0, 0, 0x21) := by decide
/-- V5.11. -/
theorem test_rxbegin_twice : (after (exec .rxbegin inCycle)).map (fun s => (s.faultCode, s.faultPhase, s.phase)) =
    some (.seqErr, .boot, .shutdown) := by decide
/-- R113's example. -/
theorem test_rxend : (after (exec .rxend { inCycle with outCount := 2, outb := [(0, 0xA1), (1, 0xB2)], preFound := true, idleCnt := 1 })).map
    (fun s => (s.events, s.idleCnt, s.cycOpen)) = some ([.report ⟨2, [0xA1, 0xB2], true, false, true⟩], 0, false) := by decide
/-- R114 with `HB_IDLE_LIMIT` 2. -/
theorem test_rxend_heartbeat : (after (exec .rxend { inCycle with idleCnt := 1 })).map (fun s => (s.events, s.idleCnt)) =
    some ([.report ⟨0, [], false, false, false⟩, .heartbeat [0xAA, 0x55, 0xAA, 0x55]], 0) := by decide
/-- V6.1: slot 63 is the last bit of 0x3C, slot 64 the first idle one. -/
theorem test_txjob : (after (exec .txjob (withJob [(0, 0x3C)]))).map
    (fun s => (rd 0 s, (Memory.load s.txb 5).map (·.i), (Memory.load s.txb 61).map (·.i), (Memory.load s.txb 64).map (·.q))) =
    some (0x1000, some (-1000), some 1000, some (-1000)) := by decide
/-- V6.3. -/
theorem test_txjob_size : (after (exec .txjob (withJob [(0, 1), (1, 2), (2, 3)]))).map (fun s => (s.txResult, s.faultCode, s.txb)) =
    some (.size, .none, []) := by decide
/-- V5.1, the second feed. -/
theorem test_pfeed : (after (exec (.pfeed 0xB2) { inCycle with preIdx := 1 })).map (fun s => (s.preIdx, s.preFound)) = some (2, true) := by
  decide
/-- V5.4, the second feed. -/
theorem test_pfeed_restart : (after (exec (.pfeed 0xA1) { inCycle with preIdx := 1 })).map (fun s => (s.preIdx, s.preFound)) =
    some (0, false) := by decide
/-- R117. -/
theorem test_stopreq : (after (exec .stopreq (at_ .acqRx))).map (fun s => (s.stopFlag, s.phase)) = some (true, .acqRx) := by decide
theorem test_stopreq_halted : after (exec .stopreq (at_ .halted)) = some (at_ .halted) := by decide
/-- R141's example. -/
theorem test_reset : (after (exec .reset { at_ .halted with faultCode := .seqErr, ref := 5 })).map (fun s => (rd 0 s, rd 3 s)) =
    some (0, 0) := by decide
/-- An illegal RESET word in `HALTED` is ignored (R141). -/
theorem test_reset_illegal : after (runWord 0x000000001 (at_ .halted)) = some (at_ .halted) := by decide
/-- The word `withFetchWord` places is the next to run. -/
theorem test_withFetchWord : (after (step (State.reset.withFetchWord 40 0x600000000))).map (fun s => s.stopFlag) = some true := by decide

/-! ### The invariant of small states -/

/-- The spec's example state of reset meets the invariant, whatever inputs come. -/
theorem reset_inv (ins : List Input) : Inv (State.reset.withInputs ins) := by
  constructor <;> simp [State.reset, State.resetWith, CoreState.reset, Memory.wf, Memory.within, Memory.filled, Config.preLen, Config.specExample, Config.wf]

/-- In `ACQ_RX`, likewise. -/
theorem acqRx_inv (ins : List Input) : Inv { (at_ .acqRx) with inputs := ins } := by
  constructor <;> simp [at_, State.reset, State.resetWith, CoreState.reset, Memory.wf, Memory.within, Memory.filled, Config.preLen, Config.specExample, Config.wf]

/-- In `HOST_READ`, under either blocking mode. -/
theorem hostRead_inv (b : Bool) (ins : List Input) :
    Inv { (at_ .hostRead) with inputs := ins, cfg := { Config.specExample with hostNonblock := b } } := by
  constructor <;> simp [at_, State.reset, State.resetWith, CoreState.reset, Memory.wf, Memory.within, Memory.filled, Config.preLen, Config.specExample, Config.wf]

/-- A buffer of one sample, in `DECODE`. -/
def oneSample : State :=
  { at_ .decode with cfg := { Config.specExample with rxBufLen := 1 }, rxb := [(0, ⟨1000, 1000⟩)] }

theorem oneSample_inv : Inv oneSample := by
  constructor <;> simp [oneSample, at_, State.reset, State.resetWith, CoreState.reset, Memory.wf, Memory.within, Memory.filled, Memory.load,
    Config.preLen, Config.specExample, Config.wf]

/-! ### Witnesses: the hypotheses of the obligations are met -/

theorem witness_EncodeDecodeRoundTrip : decode 0x203E803E8 = .ok (.rxsample 1000 1000) := by decide

/-- The least illegal word of each kind, the greatest word, and legal words at the ends of their operands. -/
theorem witness_LegalWords : (∀ i, decode 0x700000000 ≠ .ok i) ∧ (∀ i, decode 0x000000001 ≠ .ok i) ∧
    (∀ i, decode 0x500000100 ≠ .ok i) ∧ (∀ i, decode 0xFFFFFFFFF ≠ .ok i) ∧ State.reset.phase ≠ .halted ∧
    decode 0x2FFFFFFFF = .ok (.rxsample (-1) (-1)) ∧ decode 0x5000000FF = .ok (.pfeed 0xFF) := by
  refine ⟨fun i h => ?_, fun i h => ?_, fun i h => ?_, fun i h => ?_, by decide⟩ <;> cases h

theorem witness_ResetLeavesTheEnvironment : (after (exec .reset inCycle)).isSome = true := by decide

theorem witness_FaultEntry : State.reset.faultCode = .none ∧ State.reset.phase ≠ .shutdown ∧ State.reset.phase ≠ .halted ∧
    ({ at_ .shutdown with faultCode := .feRx } : State).faultCode ≠ .none ∧ (at_ .shutdown).phase = .shutdown ∧
    (at_ .halted).phase = .halted := by decide

theorem drives_none (s : State) (i : Instr) (h : s.inputs = []) : ¬ Drives s i := by
  rintro ⟨w, rest, h', _⟩; rw [h] at h'; cases h'

theorem witness_FirstFaultIsKept : step { at_ .shutdown with faultCode := .seqErr } = .next { at_ .shutdown with faultCode := .seqErr } ∧
    ({ at_ .shutdown with faultCode := .seqErr } : State).faultCode ≠ .none ∧
    ¬ Drives { at_ .shutdown with faultCode := .seqErr } .reset := ⟨rfl, by decide, drives_none _ _ rfl⟩

theorem witness_HaltedIgnores : (at_ .halted).phase = .halted ∧ decode 0x700000000 ≠ .ok .reset ∧ decode 0x600000000 ≠ .ok .reset ∧
    (after (step { at_ .halted with inputs := [.op 0x000000000] })).map (fun s => s.phase) = some .boot := by decide

theorem witness_CycleViolations : State.reset.phase ≠ .halted ∧ State.reset.cycOpen = false ∧ inCycle.phase ≠ .halted ∧
    inCycle.cycOpen = true := by decide

/-- `SYM_MAG` and the rest at both ends of their ranges. -/
theorem witness_SymbolsHaveTheirMagnitudes : Config.specExample.wf = true ∧
    { Config.specExample with symMag := 32767, guardHigh := 1, idleLow := -32768, ampShift := 15 }.wf = true ∧
    { Config.specExample with symMag := 1, guardHigh := 32767, idleLow := -1, ampShift := 0 }.wf = true := by decide

theorem witness_ReferenceHoldsHalfTheAmplitude : { Config.specExample with ampShift := 15 }.wf = true := by decide

theorem witness_DataSymbolsAreRecovered : { Config.specExample with symMag := 1, ampShift := 0 }.wf = true := by decide

/-- Searching in a cycle, with a header register and a reference. -/
def searching (h : BitVec 12) (r : BitVec 32) : State := { inCycle with hdrReg := h, ref := r }

/-- The header register after one bit, as the obligation writes it. -/
def nextHeader (s : State) (i : BitVec 16) : BitVec 12 :=
  BitVec.ofNat 12 (2 * s.hdrReg.toNat + if s.ref.toInt ≤ i.toInt * 2 ^ s.cfg.ampShift then 1 else 0)

/-- The twelfth bit of the header and of the inverted one, and a first bit that matches neither (V4.1, V4.2). -/
theorem witness_RxsampleSearches : ∀ s ∈ [searching 0x52E 8000, searching 0x2D1 (BitVec.ofInt 32 (-8000)), searching 0 0],
    s.phase ≠ .halted ∧ s.cycOpen = true ∧ s.decMode = .searchingHeader := by decide

theorem witness_RxsampleSearches_clauses :
    nextHeader (searching 0x52E 8000) (-1000) = (searching 0x52E 8000).cfg.hdrNormal ∧
    nextHeader (searching 0x2D1 (BitVec.ofInt 32 (-8000))) 1000 ≠ (searching 0x2D1 0).cfg.hdrNormal ∧
    nextHeader (searching 0x2D1 (BitVec.ofInt 32 (-8000))) 1000 = (searching 0x2D1 0).cfg.hdrInverted ∧
    nextHeader (searching 0 0) 0 ≠ (searching 0 0).cfg.hdrNormal ∧
    nextHeader (searching 0 0) 0 ≠ (searching 0 0).cfg.hdrInverted := by decide

/-- The first and the seventh bit, in both polarities. -/
theorem witness_RxsampleCollects : ∀ s ∈ [collecting 0 0 8000 .normal, collecting 6 0x1E 8000 .inverted],
    s.phase ≠ .halted ∧ s.cycOpen = true ∧ s.decMode = .collectingByte ∧ s.bitCnt.toNat < 7 := by decide

/-- Both decisions of either polarity, equality among them (V4.4). -/
theorem witness_RxsampleCollects_decisions :
    (collecting 0 0 8000 .normal).ref.toInt ≤ (500 : BitVec 16).toInt * 2 ^ Config.specExample.ampShift ∧
    ¬ (collecting 0 0 8000 .normal).ref.toInt ≤ (-1000 : BitVec 16).toInt * 2 ^ Config.specExample.ampShift ∧
    (500 : BitVec 16).toInt * 2 ^ Config.specExample.ampShift ≤ (collecting 6 0x1E 8000 .inverted).ref.toInt ∧
    ¬ (1000 : BitVec 16).toInt * 2 ^ Config.specExample.ampShift ≤ (collecting 6 0x1E 8000 .inverted).ref.toInt := by decide

/-- The eighth bit: nothing found, one byte found, everything found; with room for one byte more, and with none. -/
theorem witness_RxsampleCompletes : ∀ s ∈ [collecting 7 0x50 8000 .normal, { collecting 7 0x59 8000 .normal with preIdx := 1, outCount := 7 },
    { collecting 7 0x50 8000 .normal with preFound := true, preIdx := 2, outCount := 8 }],
    s.phase ≠ .halted ∧ s.cycOpen = true ∧ s.decMode = .collectingByte ∧ s.bitCnt.toNat = 7 ∧
    (s.preFound = true ∨ s.preIdx.toNat < 2) := by decide

/-- A match at index 0 and at index 1, a mismatch, the last free element and a full buffer. -/
theorem witness_RxsampleCompletes_clauses :
    (collecting 7 0x50 0 .normal).cfg.preamble.toList[0]? = some (BitVec.ofNat 8 (2 * (0x50 : Byte).toNat + 1)) ∧
    (collecting 7 0x59 0 .normal).cfg.preamble.toList[1]? = some (BitVec.ofNat 8 (2 * (0x59 : Byte).toNat)) ∧
    (collecting 7 0x50 0 .normal).cfg.preamble.toList[0]? ≠ some (BitVec.ofNat 8 (2 * (0x50 : Byte).toNat)) ∧
    7 < Config.specExample.rxOutCap ∧ Config.specExample.rxOutCap ≤ 8 := by decide

theorem witness_RxsampleFrame : (after (exec (.rxsample 1000 0) inCycle)).isSome = true ∧
    (after (exec (.rxsample 1000 0) (collecting 7 0 0 .normal))).isSome = true ∧
    (after (exec (.rxsample 1000 0) State.reset)).isSome = true := by decide

/-- Premise (b) of 95_test_vectors.md section 1. -/
theorem windows_normal : ∀ j, 1 ≤ j → j < 12 → Config.specExample.hdrNormal >>> (12 - j) ≠ Config.specExample.hdrNormal ∧
    Config.specExample.hdrNormal >>> (12 - j) ≠ Config.specExample.hdrInverted := by
  intro j h1 h2; interval_cases j <;> decide

/-- Premise (b) for the inverted constant. -/
theorem windows_inverted : ∀ j, 1 ≤ j → j < 12 → Config.specExample.hdrInverted >>> (12 - j) ≠ Config.specExample.hdrNormal ∧
    Config.specExample.hdrInverted >>> (12 - j) ≠ Config.specExample.hdrInverted := by
  intro j h1 h2; interval_cases j <;> decide

/-- Reset, in a cycle: with the two theorems above, the premises of `HeaderAndByteAreDecoded`. -/
theorem witness_HeaderAndByteAreDecoded : inCycle.cfg.wf = true ∧ inCycle.phase ≠ .halted ∧ inCycle.cycOpen = true ∧
    inCycle.decMode = .searchingHeader ∧ inCycle.hdrReg = 0 ∧ inCycle.outCount < inCycle.cfg.rxOutCap ∧ inCycle.preIdx.toNat < 2 ∧
    -((inCycle.cfg.symMag : Int) * 2 ^ inCycle.cfg.ampShift) < inCycle.ref.toInt ∧
    inCycle.ref.toInt ≤ (inCycle.cfg.symMag : Int) * 2 ^ inCycle.cfg.ampShift ∧
    inCycle.cfg.hdrInverted = ~~~ inCycle.cfg.hdrNormal := by decide

/-- The same state, with `windows_normal`, meets the premises of `ByteSplitAcrossCyclesCompletes`. -/
theorem witness_ByteSplitAcrossCycles : inCycle.cfg.wf = true ∧ inCycle.phase ≠ .halted ∧ inCycle.cycOpen = true ∧
    inCycle.decMode = .searchingHeader ∧ inCycle.hdrReg = 0 ∧ inCycle.outCount ≤ inCycle.cfg.rxOutCap ∧
    Memory.filled inCycle.outb inCycle.outCount ∧ inCycle.ref = 0 := by decide

theorem witness_RxbeginOpens : State.reset.phase ≠ .halted ∧ State.reset.cycOpen = false ∧ inCycle.phase ≠ .halted ∧
    inCycle.cycOpen = true := by decide

/-- Nothing found, at either index; everything found. -/
theorem witness_PfeedFeeds : ∀ s ∈ [inCycle, { inCycle with preIdx := 1 }, { inCycle with preIdx := 2, preFound := true }],
    s.phase ≠ .halted ∧ s.cycOpen = true ∧ (s.preFound = true ∨ s.preIdx.toNat < 2) := by decide

/-- A match at either index, and a mismatch at either. -/
theorem witness_PfeedFeeds_clauses : inCycle.cfg.preamble.toList[0]? = some 0xA1 ∧ inCycle.cfg.preamble.toList[1]? = some 0xB2 ∧
    inCycle.cfg.preamble.toList[0]? ≠ some 0xB2 ∧ inCycle.cfg.preamble.toList[1]? ≠ some 0xA1 := by decide

theorem witness_PreambleSequences : inCycle.phase ≠ .halted ∧ inCycle.cycOpen = true ∧ inCycle.preIdx = 0 ∧ inCycle.preFound = false ∧
    inCycle.cfg.preamble = #v[0xA1, 0xB2] ∧ (0 : Byte) ≠ 0xA1 ∧ (0 : Byte) ≠ 0xB2 ∧ (0xA1 : Byte) ≠ 0xB2 := by decide

theorem witness_PreambleDoesNotCross : ∀ s ∈ [{ inCycle with preIdx := 1 }], s.phase ≠ .halted ∧ s.cycOpen = true ∧
    s.outCount ≤ s.cfg.rxOutCap ∧ Memory.filled s.outb s.outCount := by decide

theorem witness_CycleBoundaries : (after (exec .rxbegin State.reset)).isSome = true ∧ (after (exec .rxend inCycle)).isSome = true ∧
    (after (exec .rxbegin inCycle)).isSome = true ∧ (after (exec .rxend State.reset)).isSome = true := by decide

theorem witness_PfeedFrame : (after (exec (.pfeed 0xA1) inCycle)).isSome = true ∧ (after (exec (.pfeed 0xA1) State.reset)).isSome = true := by
  decide

/-- A cycle with one byte and no preamble: idle under `REPORTED` and not under `DECODED`. -/
def oneByte (r : HbIdleRule) (e : Bool) (n : BitVec 32) : State :=
  { inCycle with cfg := { Config.specExample with hbIdleRule := r, hbEnable := e }, outCount := 1, outb := [(0, 0x3C)], idleCnt := n }

/-- The states of the four clauses: the heartbeat off; a cycle that is not idle; the limit reached; the limit not reached. -/
theorem witness_RxendReports : ∀ s ∈ [oneByte .decoded false 0, oneByte .decoded true 0, oneByte .reported true 1, oneByte .reported true 0],
    s.phase ≠ .halted ∧ s.cycOpen = true ∧ s.outCount ≤ s.cfg.rxOutCap ∧ [(0x3C : Byte)].length = s.outCount ∧
    ∀ k, k < s.outCount → Memory.load s.outb k = [(0x3C : Byte)][k]? := by decide

theorem witness_RxendReports_clauses : (oneByte .decoded false 0).cfg.hbEnable = false ∧
    ((oneByte .decoded true 0).cfg.hbIdleRule = .decoded ∧ (oneByte .decoded true 0).outCount ≠ 0) ∧
    ((oneByte .reported true 1).cfg.hbIdleRule = .reported ∧ (oneByte .reported true 1).preFound = false ∧
      (oneByte .reported true 1).idleCnt.toNat + 1 = (oneByte .reported true 1).cfg.hbIdleLimit) ∧
    ((oneByte .reported true 0).cfg.hbIdleRule = .reported ∧ (oneByte .reported true 0).preFound = false ∧
      (oneByte .reported true 0).idleCnt.toNat + 1 ≠ (oneByte .reported true 0).cfg.hbIdleLimit) := by decide

/-- An idle cycle with `IDLE_CNT` at its largest value, under the limit given. -/
def atWidth (limit : Nat) : State :=
  { oneByte .reported true 0xFFFFFFFF with cfg := { Config.specExample with hbIdleRule := .reported, hbIdleLimit := limit } }

/-- The clause of the limit, at the largest limit whose counts fit `IDLE_CNT` (10_state.md R37, 45_orchestrator.md R114). -/
theorem witness_RxendReports_width : ∀ s ∈ [atWidth (2 ^ 32)], s.phase ≠ .halted ∧ s.cycOpen = true ∧ s.outCount ≤ s.cfg.rxOutCap ∧
    [(0x3C : Byte)].length = s.outCount ∧ (∀ k, k < s.outCount → Memory.load s.outb k = [(0x3C : Byte)][k]?) ∧ s.cfg.hbEnable = true ∧
    s.cfg.hbIdleRule = .reported ∧ s.preFound = false ∧ s.idleCnt.toNat + 1 = s.cfg.hbIdleLimit := by decide

/-- 45_orchestrator.md R114: the 2^32nd idle cycle in a row gives the heartbeat of the limit 2^32, and the counter is 0. -/
theorem test_heartbeat_at_the_width : (after (exec .rxend (atWidth (2 ^ 32)))).map (fun t => (t.events, t.idleCnt, t.freeCtr)) =
    some ([.report ⟨1, [0x3C], false, false, false⟩, .heartbeat [0xAA, 0x55, 0xAA, 0x55]], 0, 0) := by decide

theorem witness_RxendCompletesPastTheCounterWidth : ∀ s ∈ [atWidth 2, atWidth (2 ^ 32 + 1)], s.phase ≠ .halted ∧ s.cycOpen = true ∧
    s.outCount ≤ s.cfg.rxOutCap ∧ [(0x3C : Byte)].length = s.outCount ∧ (∀ k, k < s.outCount → Memory.load s.outb k = [(0x3C : Byte)][k]?) ∧
    s.cfg.hbIdleRule = .reported ∧ ¬ (s.preFound = true ∧ 0 < s.outCount) ∧ s.cfg.hbEnable = true ∧ s.idleCnt.toNat + 1 = 2 ^ 32 ∧
    s.cfg.hbIdleLimit ≠ 2 ^ 32 := by
  decide

theorem witness_Heartbeat : State.reset.cfg.wf = true ∧ State.reset.phase ≠ .halted ∧ State.reset.cycOpen = false ∧
    State.reset.cfg.hbEnable = true ∧ State.reset.idleCnt = 0 ∧ State.reset.cfg.hbIdleLimit ≤ 2 ^ 32 := by decide

/-- The same at the largest limit. -/
theorem witness_Heartbeat_width : ∀ s ∈ [State.resetWith { Config.specExample with hbIdleLimit := 2 ^ 32 }], s.cfg.wf = true ∧
    s.phase ≠ .halted ∧ s.cycOpen = false ∧ s.cfg.hbEnable = true ∧ s.idleCnt = 0 ∧ s.cfg.hbIdleLimit ≤ 2 ^ 32 := by decide

/-- V6.2. -/
theorem witness_TxjobWritesTheFrame : ∀ s ∈ [withJob [(0, 0xA1), (1, 0xB2)]], s.phase ≠ .halted ∧ s.cycOpen = false ∧
    [(0xA1 : Byte), 0xB2].length = s.txN ∧ (∀ j, j < s.txN → Memory.load s.jobb j = [(0xA1 : Byte), 0xB2][j]?) ∧
    s.txN ≤ s.cfg.txMaxBytes ∧ s.cfg.guardLen + 60 * s.txN ≤ s.cfg.txBufLen := by decide

/-- V6.2's job, with `TX_BUF_LEN` and the policy given. -/
def sized (n : Nat) (p : TxSizePolicy) : State :=
  { withJob [(0, 0xA1), (1, 0xB2)] with cfg := { Config.specExample with txBufLen := n, txSizePolicy := p } }

/-- One slot too few under each policy, one byte too many, and a buffer filled exactly. -/
theorem witness_TxjobRejects : (∀ s ∈ [sized 123 .rejectContinue, sized 123 .fatal, sized 124 .fatal,
      { State.reset with txN := 5 }], s.phase ≠ .halted ∧ s.cycOpen = false) ∧
    (∀ s ∈ [sized 123 .rejectContinue, sized 123 .fatal], s.cfg.txBufLen < s.cfg.guardLen + 20 * 3 * s.txN) ∧
    State.reset.cfg.txMaxBytes < 5 ∧
    (∀ s ∈ [sized 124 .fatal], s.cfg.guardLen + 20 * 3 * s.txN = s.cfg.txBufLen ∧ s.txN ≤ s.cfg.txMaxBytes ∧
      Memory.filled s.jobb s.txN ∧ 0 < s.txN) := by decide

/-- A job of no bytes in a buffer of guard symbols alone. -/
theorem witness_TxjobRejects_empty : ∀ s ∈ [{ State.reset with cfg := { Config.specExample with guardLen := 130 } }],
    s.phase ≠ .halted ∧ s.cycOpen = false ∧ s.cfg.guardLen + 20 * 3 * s.txN = s.cfg.txBufLen ∧ s.txN ≤ s.cfg.txMaxBytes ∧
    Memory.filled s.jobb s.txN ∧ s.txN = 0 ∧ 0 < s.cfg.txBufLen := by decide

theorem witness_TxjobUnderFatal : ∀ s ∈ [sized 123 .fatal, { sized 123 .fatal with phase := .shutdown, faultCode := .seqErr }],
    s.phase ≠ .halted ∧ s.cycOpen = false ∧ s.cfg.txSizePolicy = .fatal ∧
      s.cfg.txBufLen < s.cfg.guardLen + 20 * 3 * s.txN := by decide

theorem witness_TxjobFrame : (after (exec .txjob (withJob [(0, 0x3C)]))).isSome = true ∧
    (after (exec .txjob (withJob [(0, 1), (1, 2), (2, 3)]))).isSome = true ∧ (after (exec .txjob inCycle)).isSome = true := by decide

/-- V6.8: with `windows_normal`, the premises of the round trip. -/
theorem witness_TransmitReceiveRoundTrip : ∀ s ∈ [withJob [(0, 0x3C)]], s.cfg.wf = true ∧ s.phase ≠ .halted ∧ s.cycOpen = false ∧
    s.decMode = .searchingHeader ∧ s.hdrReg = 0 ∧ s.ref = 0 ∧ [(0x3C : Byte)].length = s.txN ∧
    (∀ j, j < s.txN → Memory.load s.jobb j = [(0x3C : Byte)][j]?) ∧ s.txN ≤ s.cfg.txMaxBytes ∧
    s.cfg.guardLen + 60 * s.txN ≤ s.cfg.txBufLen ∧ 3 * s.txN ≤ s.cfg.rxOutCap := by decide

theorem witness_Stopreq : State.reset.phase ≠ .halted ∧ (at_ .halted).phase = .halted := by decide

theorem witness_StopFlag : step { State.reset with stopFlag := true } = .next { State.reset with stopFlag := true } ∧
    ¬ Drives { State.reset with stopFlag := true } .reset := ⟨rfl, drives_none _ _ rfl⟩

theorem witness_StopRequestWaits : (at_ .acqRx).phase ≠ .checkStop ∧ ¬ Drives (at_ .acqRx) .reset ∧
    step { at_ .acqRx with stopFlag := false } = .next (at_ .acqRx) := ⟨by decide, drives_none _ _ rfl, rfl⟩

/-- The two ways into `SHUTDOWN`. -/
theorem witness_ShutdownIsEntered : step { at_ .checkStop with stopFlag := true } = .next { at_ .shutdown with stopFlag := true } ∧
    step { State.reset with inputs := [.op 0x700000000] } = .next (faultEntry .badOp State.reset) ∧
    (faultEntry .badOp State.reset).phase = .shutdown := ⟨rfl, rfl, rfl⟩

theorem witness_StepRunsTheDrivenInstruction : ∀ s ∈ [{ State.reset with inputs := [.op 0x600000000] }], s.cfg.wf = true ∧
    s.inputs = .op 0x600000000 :: [] ∧ decode 0x600000000 = .ok .stopreq ∧ 36 ≤ 40 ∧ 0x600000000 < 2 ^ 36 ∧
    decodeTableWord 40 0x600000000 = some .stopreq := by decide

/-- An illegal word, outside `HALTED` and in it. -/
theorem witness_StepRunsAnIllegalWord : (∀ i, decode 0x700000000 ≠ .ok i) ∧ decodeTableWord 40 0x700000000 = none ∧
    (∀ s ∈ [{ State.reset with inputs := [.op 0x700000000] }, { at_ .halted with inputs := [.op 0x700000000] }],
      s.cfg.wf = true ∧ s.inputs = .op 0x700000000 :: []) := ⟨fun i h => (by cases h), by decide, by decide⟩

/-- An answer taken, an answer that stays, a `pass`, no input, and an operation; a refusal; and a fault, from a state no run
reaches. -/
theorem witness_StepIsAFunctionOfItsArguments :
    (∀ x ∈ [(State.reset, Input.answer (.configure true)), (at_ .checkStop, .answer .shutdownDone), (at_ .checkStop, .pass),
        (State.reset, .op 0x600000000)],
      ∃ t, stepOn x.1.cfg x.2 x.1.toCoreState = .next t ∧ t.taken = decide (x.2 ≠ .answer .shutdownDone)) ∧
    stepOn State.reset.cfg (.answer .shutdownDone) State.reset.toCoreState = .refused .unrequestedAnswer ∧
    stepOn State.reset.cfg (.op 0x5000000A1) { inCycle with preIdx := 3 }.toCoreState = .fault .indexOutOfRange := by
  refine ⟨?_, rfl, rfl⟩
  intro x hx
  fin_cases hx <;> exact ⟨_, rfl, by decide⟩

theorem witness_PhasesFollowTheTable : step { State.reset with inputs := [.answer (.configure true)] } = .next (at_ .acqRx) ∧
    (at_ .acqRx).phase ≠ ({ State.reset with inputs := [.answer (.configure true)] } : State).phase ∧
    ¬ Drives { State.reset with inputs := [.answer (.configure true)] } .reset :=
  ⟨rfl, by decide, by rintro ⟨w, rest, h, _⟩; cases h⟩

/-- A state in a phase with one answer to take. -/
def answering (p : Phase) (a : Answer) : State := { at_ p with inputs := [.answer a] }

/-- The four `error` answers, each in its phase. -/
theorem witness_FrontEndErrors : ∀ x ∈ [(Phase.boot, Answer.configure false), (.acqRx, .receiveError), (.encode, .transmitSlot false),
      (.submitTx, .submit false)],
    (answering x.1 x.2).cfg.wf = true ∧ (answering x.1 x.2).phase = x.1 ∧ (answering x.1 x.2).midPhase = false ∧
    (answering x.1 x.2).inputs = .answer x.2 :: [] := by decide

/-- The three ways `LeavesInputs` holds. -/
theorem leavesInputs_cases (s : State) (a : Answer) (rest : List Input) : LeavesInputs { s with inputs := [] } [] ∧
    LeavesInputs { s with inputs := .pass :: rest } rest ∧
    LeavesInputs { s with inputs := .answer a :: rest } (.answer a :: rest) :=
  ⟨.inl ⟨rfl, rfl⟩, .inr (.inl rfl), .inr (.inr ⟨a, rest, rfl, rfl⟩)⟩

/-- The other handshakes, each in its phase; `CHECK_STOP` with no input, the flag set and clear, and `HALTED`. Their premise on
the inputs is met by `leavesInputs_cases`. -/
theorem witness_HandshakesMoveThePhase : (∀ x ∈ [(Phase.boot, Answer.configure true), (.encode, .transmitSlot true),
      (.submitTx, .submit true), (.shutdown, .shutdownDone)],
    (answering x.1 x.2).cfg.wf = true ∧ (answering x.1 x.2).phase = x.1 ∧ (answering x.1 x.2).midPhase = false ∧
    (answering x.1 x.2).inputs = .answer x.2 :: []) ∧
    (∀ s ∈ [at_ .checkStop, { at_ .checkStop with stopFlag := true }], s.cfg.wf = true ∧ s.phase = .checkStop ∧ s.inputs = []) ∧
    (at_ .halted).phase = .halted := by decide

theorem witness_ReceiveHandover : ∀ s ∈ [answering .acqRx (.receiveBuffer (List.replicate 20 ⟨1000, 1000⟩))], s.cfg.wf = true ∧
    s.phase = .acqRx ∧ s.inputs = .answer (.receiveBuffer (List.replicate 20 ⟨1000, 1000⟩)) :: [] ∧
    (List.replicate 20 (⟨1000, 1000⟩ : Sample)).length = s.cfg.rxBufLen := by decide

theorem witness_DecodePass : Inv oneSample ∧ oneSample.phase = .decode ∧ oneSample.midPhase = false ∧ oneSample.cycOpen = false ∧
    oneSample.inputs = [] ∧ [(⟨1000, 1000⟩ : Sample)].length = oneSample.cfg.rxBufLen ∧
    ∀ k, k < oneSample.cfg.rxBufLen → Memory.load oneSample.rxb k = [(⟨1000, 1000⟩ : Sample)][k]? := ⟨oneSample_inv, by decide⟩

/-- No bytes, and as many as fit, with and without the shutdown bit. -/
theorem witness_HostAnswer : ∀ x ∈ [(([] : List Byte), false), ([], true), ([1, 2, 3, 4], false), ([1, 2, 3, 4], true)],
    (answering .hostRead (.host x.1 x.2)).cfg.wf = true ∧ (answering .hostRead (.host x.1 x.2)).phase = .hostRead ∧
    (answering .hostRead (.host x.1 x.2)).midPhase = false ∧
    (answering .hostRead (.host x.1 x.2)).inputs = .answer (.host x.1 x.2) :: [] ∧
    x.1.length ≤ (answering .hostRead (.host x.1 x.2)).cfg.txMaxBytes := by decide

/-- In `HOST_READ`, the second part, and every part of `DECODE`, in a cycle and outside one. Their premise on the inputs, and that
of `HostAnswerBecomesTheJob`, is met by `leavesInputs_cases`. -/
theorem witness_OrchestratorIssues_parts :
    (∀ s ∈ [oneSample, { oneSample with cycOpen := true }], s.phase = .decode ∧ s.midPhase = false ∧
      (after (exec .rxbegin s)).isSome = true) ∧
    (∀ s ∈ [{ oneSample with midPhase := true }, { oneSample with midPhase := true, cycOpen := true }], s.phase = .decode ∧
      s.midPhase = true ∧ s.sidx < s.cfg.rxBufLen ∧ Memory.load s.rxb s.sidx = some ⟨1000, 1000⟩ ∧
      (after (exec (.rxsample 1000 1000) s)).isSome = true) ∧
    (∀ s ∈ [{ oneSample with midPhase := true, sidx := 1 }], s.phase = .decode ∧ s.midPhase = true ∧ s.cfg.rxBufLen ≤ s.sidx) ∧
    (∀ s ∈ [{ at_ .hostRead with midPhase := true }], s.phase = .hostRead ∧ s.midPhase = true ∧
      (after (exec .stopreq s)).isSome = true) := by decide

/-- RXEND in a cycle and outside one; TXJOB that fits, that is rejected, and that faults. -/
theorem witness_OrchestratorIssues :
    (∀ s ∈ [{ inCycle with phase := .report }, at_ .report], s.cfg.wf = true ∧ s.inputs = [] ∧ s.phase = .report ∧
      (after (exec .rxend s)).isSome = true) ∧
    (∀ s ∈ [{ withJob [(0, 0x3C)] with phase := .encode, midPhase := true }, { at_ .encode with midPhase := true, txN := 5 }],
      s.cfg.wf = true ∧ s.inputs = [] ∧ (after (exec .txjob s)).map (fun s => s.phase) = some .encode) ∧
    (∀ s ∈ [{ inCycle with phase := .encode, midPhase := true }], s.cfg.wf = true ∧ s.inputs = [] ∧
      (after (exec .txjob s)).map (fun s => s.phase) = some .shutdown) := by decide

/-- Every wait, with no input, with a `pass` and with a stop request. -/
theorem witness_Waits : ∀ p ∈ [Phase.boot, .acqRx, .hostRead, .encode, .submitTx, .shutdown], (at_ p).cfg.wf = true ∧ (at_ p).phase = p ∧
    (at_ p).midPhase = false ∧ (at_ p).cfg.hostNonblock = false ∧ (at_ p).inputs = [] ∧
    ({ at_ p with inputs := [.pass] } : State).inputs = .pass :: [] ∧
    ({ at_ p with inputs := [.op (encode .stopreq)] } : State).inputs = .op (encode .stopreq) :: [] := by decide

theorem witness_ReceiveBufferIsFixed : step (at_ .checkStop) = .next (at_ .acqRx) ∧ (at_ .checkStop).phase ≠ .acqRx ∧
    ¬ Drives (at_ .checkStop) .reset := ⟨rfl, by decide, drives_none _ _ rfl⟩

theorem witness_StepKeepsTheInvariant : Inv State.reset ∧ step State.reset = .next State.reset := ⟨reset_inv [], rfl⟩

/-- Each way a step is refused, from a state that meets the invariant. -/
theorem witness_OnlyBrokenDuties :
    (Inv { at_ .acqRx with inputs := [.answer (.receiveBuffer [])] } ∧
      refusal (step { at_ .acqRx with inputs := [.answer (.receiveBuffer [])] }) = some .shortReceiveBuffer) ∧
    (Inv { at_ .hostRead with inputs := [.answer (.host [1, 2, 3, 4, 5] false)], cfg := { Config.specExample with hostNonblock := false } } ∧
      refusal (step { at_ .hostRead with inputs := [.answer (.host [1, 2, 3, 4, 5] false)], cfg := { Config.specExample with hostNonblock := false } }) =
        some .hostAnswerTooLong) ∧
    (Inv { at_ .hostRead with inputs := [], cfg := { Config.specExample with hostNonblock := true } } ∧
      refusal (step { at_ .hostRead with inputs := [], cfg := { Config.specExample with hostNonblock := true } }) = some .hostNotAtOnce) ∧
    (Inv { at_ .acqRx with inputs := [.answer .shutdownDone] } ∧
      refusal (step { at_ .acqRx with inputs := [.answer .shutdownDone] }) = some .unrequestedAnswer) :=
  ⟨⟨acqRx_inv _, by decide⟩, ⟨hostRead_inv _ _, by decide⟩, ⟨hostRead_inv _ _, by decide⟩, ⟨acqRx_inv _, by decide⟩⟩

/-- An ill-formed configuration: two samples for each bit (R11). -/
theorem witness_OnlyBrokenDuties_config : { Config.specExample with samplesPerBit := 2 }.wf = false ∧
    refusal (step { State.reset with cfg := { Config.specExample with samplesPerBit := 2 } }) = some .badConfig := by decide

/-- The greatest counts a word holds. -/
theorem witness_StatusPort : ({ State.reset with outCount := 4294967295, sidx := 4294967295, txN := 4294967295 } : State).outCount < 2 ^ 32 ∧
    (9 : BitVec 8).toNat ≥ 9 ∧ (255 : BitVec 8).toNat ≥ 9 := by decide

end Sys2Proof.Tests
end

/-! PROOFS. What RESET leaves behind (10_state.md R41, 20_memory.md R52, 70_reset_and_hazards.md R141). -/

namespace Sys2Proof.Machine

/-- The empty space holds no value at any index (20_memory.md R52). -/
@[simp] theorem Memory.load_nil {α : Type} (k : Nat) : Memory.load ([] : Memory α) k = none := rfl

/-- RESET has no failing path (70_reset_and_hazards.md R141). -/
theorem exec_reset_next (s : State) : exec .reset s = .next (resetCore s) := rfl

/-- RESET brings the whole core to its reset state, but for the counter of free values (log entry 10). -/
theorem resetCore_toCoreState (s : State) :
    (resetCore s).toCoreState = { CoreState.reset with freeCtr := s.freeCtr } := rfl

/-- The machine's own reset state and the state after a RESET have one core, but for the counter of free values. -/
theorem toCoreState_eq_reset {t : State} (h : t = State.reset ∨ ∃ s : State, exec .reset s = .next t) :
    t.toCoreState = { CoreState.reset with freeCtr := t.freeCtr } := by
  obtain rfl | ⟨s, hs⟩ := h
  · rfl
  · rw [exec_reset_next] at hs
    cases hs
    exact resetCore_toCoreState s

/-- Settles O5: the core of either state is `CoreState.reset`, whose fields are the table of R41. -/
theorem resetGivesEveryRegisterItsResetValue : Obligations.ResetGivesEveryRegisterItsResetValue := by
  unfold Obligations.ResetGivesEveryRegisterItsResetValue
  refine ⟨fun s => ⟨resetCore s, exec_reset_next s⟩, fun t ht => ?_⟩
  have hcore : t.toCoreState = { CoreState.reset with freeCtr := t.freeCtr } := toCoreState_eq_reset ht
  rw [hcore]
  simp [CoreState.reset]

end Sys2Proof.Machine

/-! PROOFS. The operation word: decoding against encoding, and which words are legal (30_encoding.md R58 to R62). -/

namespace Sys2Proof

/-! ### The two fields of a word (R58) -/

@[simp] theorem opcOf_opWord (opc : BitVec 4) (arg : Arg) : opcOf (opWord opc arg) = opc :=
  BitVec.extractLsb'_append_eq_left

@[simp] theorem argOf_opWord (opc : BitVec 4) (arg : Arg) : argOf (opWord opc arg) = arg :=
  BitVec.extractLsb'_append_eq_right

theorem opWord_opcOf_argOf (w : OpWord) : opWord (opcOf w) (argOf w) = w :=
  BitVec.extractLsb'_append_extractLsb' (w := 4) (len := 32)

theorem opWord_argOf_of_opcOf {w : OpWord} {opc : BitVec 4} (h : (opcOf w).toNat = opc.toNat) :
    opWord opc (argOf w) = w := by
  rw [← BitVec.eq_of_toNat_eq h, opWord_opcOf_argOf]

theorem opcOf_toNat (w : OpWord) : (opcOf w).toNat = w.toNat / 2 ^ 32 := by
  have := w.isLt
  rw [opcOf, BitVec.extractLsb'_toNat, Nat.shiftRight_eq_div_pow]
  omega

theorem argOf_toNat (w : OpWord) : (argOf w).toNat = w.toNat % 2 ^ 32 := by
  rw [argOf, BitVec.extractLsb'_toNat, Nat.shiftRight_zero]

/-! ### The operand of each form (R59, R61, R62): what it decodes to, and when it is legal -/

theorem decodeNoOperand_eq_ok {arg : Arg} {i j : Instr} : decodeNoOperand arg j = .ok i ↔ arg = 0 ∧ j = i := by
  unfold decodeNoOperand
  split <;> simp_all

theorem decodeRxsample_eq_ok {arg : Arg} {i : Instr} :
    decodeRxsample arg = .ok i ↔ ∃ si sq, arg = sq ++ si ∧ .rxsample si sq = i := by
  unfold decodeRxsample
  constructor
  · rintro ⟨⟩
    exact ⟨_, _, (BitVec.extractLsb'_append_extractLsb' (w := 16) (len := 16)).symm, rfl⟩
  · rintro ⟨si, sq, rfl, rfl⟩
    rw [BitVec.extractLsb'_append_eq_right, BitVec.extractLsb'_append_eq_left]

theorem decodePfeed_eq_ok {arg : Arg} {i : Instr} :
    decodePfeed arg = .ok i ↔ ∃ b : Byte, arg = (0 : BitVec 24) ++ b ∧ .pfeed b = i := by
  unfold decodePfeed
  constructor
  · intro h
    split at h <;> cases h
    refine ⟨_, ?_, rfl⟩
    rw [← ‹arg.extractLsb' 8 24 = 0›]
    exact (BitVec.extractLsb'_append_extractLsb' (w := 24) (len := 8)).symm
  · rintro ⟨b, rfl, rfl⟩
    rw [BitVec.extractLsb'_append_eq_left, BitVec.extractLsb'_append_eq_right, if_pos rfl]

theorem decodeNoOperand_legal {arg : Arg} {j : Instr} : (∃ i, decodeNoOperand arg j = .ok i) ↔ arg.toNat = 0 := by
  simp [decodeNoOperand_eq_ok, BitVec.toNat_eq]

theorem decodeRxsample_legal (arg : Arg) : ∃ i, decodeRxsample arg = .ok i := ⟨_, rfl⟩

theorem decodePfeed_legal {arg : Arg} : (∃ i, decodePfeed arg = .ok i) ↔ arg.toNat / 2 ^ 8 = 0 := by
  have hhi : arg.extractLsb' 8 24 = 0 ↔ arg.toNat / 2 ^ 8 = 0 := by
    have := arg.isLt
    rw [BitVec.ofNat_eq_ofNat, BitVec.toNat_eq, BitVec.extractLsb'_toNat, Nat.shiftRight_eq_div_pow, BitVec.toNat_zero]
    omega
  rw [← hhi]
  unfold decodePfeed
  split
  · exact iff_of_true ⟨_, rfl⟩ ‹_›
  · exact iff_of_false (by simp) ‹_›

/-! ### Decoding and encoding are inverse -/

/-- Settles O1: the word's fields are the `OPC` and `ARG` it was made of, and each operand form reads its operand back. -/
theorem decodeEncodeRoundTrip : Obligations.DecodeEncodeRoundTrip := by
  unfold Obligations.DecodeEncodeRoundTrip
  intro i
  unfold encode decode
  cases i with
  | rxsample si sq =>
    simpa using decodeRxsample_eq_ok.2 ⟨si, sq, rfl, rfl⟩
  | pfeed b =>
    simpa using decodePfeed_eq_ok.2 ⟨b, rfl, rfl⟩
  | reset | rxbegin | rxend | txjob | stopreq =>
    simpa using decodeNoOperand_eq_ok.2 ⟨rfl, rfl⟩

/-- Settles O2: a word is made of its two fields, and the row its `OPC` selects fixes the `ARG` of the instruction read. -/
theorem encodeDecodeRoundTrip : Obligations.EncodeDecodeRoundTrip := by
  unfold Obligations.EncodeDecodeRoundTrip
  intro w i h
  unfold decode at h
  split at h
  case h_3 hopc =>
    obtain ⟨si, sq, harg, rfl⟩ := decodeRxsample_eq_ok.1 h
    rw [encode, ← harg, opWord_argOf_of_opcOf hopc]
  case h_6 hopc =>
    obtain ⟨b, harg, rfl⟩ := decodePfeed_eq_ok.1 h
    rw [encode, ← harg, opWord_argOf_of_opcOf hopc]
  case h_8 => cases h
  case h_1 hopc | h_2 hopc | h_4 hopc | h_5 hopc | h_7 hopc =>
    obtain ⟨harg, rfl⟩ := decodeNoOperand_eq_ok.1 h
    rw [encode, ← harg, opWord_argOf_of_opcOf hopc]

/-! ### Legal and illegal words (R60, 60_exceptions.md R126) -/

/-- The legal words, by the number of their fields. -/
theorem decode_legal_iff (w : OpWord) : (∃ i, decode w = .ok i) ↔
    (opcOf w).toNat ≤ 6 ∧ ((opcOf w).toNat = 5 → (argOf w).toNat / 2 ^ 8 = 0) ∧
      ((opcOf w).toNat ≠ 2 → (opcOf w).toNat ≠ 5 → (argOf w).toNat = 0) := by
  unfold decode
  split
  case h_3 hopc => simp [hopc, decodeRxsample_legal]
  case h_6 hopc => simp [hopc, decodePfeed_legal]
  case h_8 =>
    simp only [imp_false] at *
    exact iff_of_false (by simp) (by omega)
  case h_1 hopc | h_2 hopc | h_4 hopc | h_5 hopc | h_7 hopc =>
    simp [hopc, decodeNoOperand_legal]

end Sys2Proof

namespace Sys2Proof.Machine

/-- Outside `HALTED`, a word that decodes to no operation enters the fault `BAD_OP` and does nothing else (R126). -/
theorem runWord_illegal {w : OpWord} {s : State} (hw : ∀ i, decode w ≠ .ok i) (hp : s.phase ≠ .halted) :
    runWord w s = .next (faultEntry .badOp s) := by
  unfold runWord
  split
  · exact absurd ‹_› (hw _)
  · rw [illegalWord_eq, if_neg hp]

/-- Settles O3: legality by the numbers of `OPC` and `ARG`, and the one thing an illegal word does. -/
theorem legalWordsDecodeOthersRaiseBadOp : Obligations.LegalWordsDecodeOthersRaiseBadOp := by
  unfold Obligations.LegalWordsDecodeOthersRaiseBadOp
  intro w
  refine ⟨?_, fun hw s hp => runWord_illegal hw hp⟩
  rw [decode_legal_iff, opcOf_toNat, argOf_toNat]

end Sys2Proof.Machine

/-! PROOFS. The symbols and the Sample (30_encoding.md R62 to R64, 20_memory.md R47, 41_symbol_codec.md R80). -/

namespace Sys2Proof.Machine

/-- Both components of a symbol are the integer it was made of, when that integer has 16 bits. -/
theorem bothComponents_toInt {v : Int} (h1 : -32768 ≤ v) (h2 : v ≤ 32767) :
    (bothComponents v).i.toInt = v ∧ (bothComponents v).q.toInt = v :=
  ⟨toInt_ofInt_16 v h1 h2, toInt_ofInt_16 v h1 h2⟩

/-- Settles O11: the ranges of a well-formed configuration are those of a component (00_scope.md R6). -/
theorem symbolsHaveTheirMagnitudes : Obligations.SymbolsHaveTheirMagnitudes := by
  unfold Obligations.SymbolsHaveTheirMagnitudes
  intro c hwf
  obtain ⟨-, -, -, -, -, hmag1, hmag2, hhigh1, hhigh2, hlow1, hlow2, -, -⟩ := (config_wf_iff c).1 hwf
  obtain ⟨hgi, hgq⟩ := bothComponents_toInt (v := c.guardHigh) (by omega) (by omega)
  obtain ⟨hii, hiq⟩ := bothComponents_toInt hlow1 (by omega)
  refine ⟨?_, ?_, ⟨hgi, hgq, by omega⟩, hii, hiq, by omega⟩
  · exact bothComponents_toInt (by omega) (by omega)
  · exact bothComponents_toInt (by omega) (by omega)

@[simp] theorem sampleOfWord_sampleWord (x : Sample) : sampleOfWord (sampleWord x) = x := by
  unfold sampleOfWord sampleWord
  rw [BitVec.extractLsb'_append_eq_right, BitVec.extractLsb'_append_eq_left]

theorem sampleWord_toNat (x : Sample) : (sampleWord x).toNat = x.i.toNat + 2 ^ 16 * x.q.toNat :=
  toNat_append_eq x.q x.i

/-- Two bytes are the low and the high byte of a component exactly when it is their little-endian number. -/
theorem bytes_eq_iff_toNat {v : BitVec 16} {lo hi : Byte} :
    v.extractLsb' 0 8 = lo ∧ v.extractLsb' 8 8 = hi ↔ v.toNat = lo.toNat + 2 ^ 8 * hi.toNat := by
  have := v.isLt
  have := lo.isLt
  have := hi.isLt
  simp only [BitVec.toNat_eq, BitVec.extractLsb'_toNat, Nat.shiftRight_eq_div_pow]
  omega

/-- Settles O14: the slot's four bytes are two little-endian pairs, one for each component. -/
theorem sampleWordAndSlotBytes : Obligations.SampleWordAndSlotBytes := by
  unfold Obligations.SampleWordAndSlotBytes
  intro x b0 b1 b2 b3
  refine ⟨sampleOfWord_sampleWord x, sampleWord_toNat x, ?_⟩
  simp only [← bytes_eq_iff_toNat, sampleBytes, List.cons.injEq, and_true, and_assoc]

end Sys2Proof.Machine

/-! PROOFS. The decoder: RXSAMPLE by decoder state (42_decoder.md R83 to R88). -/

namespace Sys2Proof.Machine

/-! ### One bit in `SEARCHING_HEADER` (R84, R85) -/

/-- The normal constant is compared first, so it wins where the two are equal (R85). -/
theorem headerMatch_normal {c : Config} {h : BitVec 12} (hn : h = c.hdrNormal) : headerMatch c h = some .normal :=
  if_pos hn

theorem headerMatch_inverted {c : Config} {h : BitVec 12} (hn : h ≠ c.hdrNormal) (hi : h = c.hdrInverted) :
    headerMatch c h = some .inverted := by
  rw [headerMatch, if_neg hn, if_pos hi]

theorem headerMatch_none {c : Config} {h : BitVec 12} (hn : h ≠ c.hdrNormal) (hi : h ≠ c.hdrInverted) :
    headerMatch c h = none := by
  rw [headerMatch, if_neg hn, if_neg hi]

theorem searchBit_match {b : Bool} {s : State} {p : Polarity} (h : headerMatch s.cfg (shiftIn s.hdrReg b) = some p) :
    searchBit b s = { s with decMode := .collectingByte, decPol := p, hdrReg := 0, bitCnt := 0 } := by
  simp only [searchBit, h]

theorem searchBit_noMatch {b : Bool} {s : State} (h : headerMatch s.cfg (shiftIn s.hdrReg b) = none) :
    searchBit b s = { s with hdrReg := shiftIn s.hdrReg b } := by
  simp only [searchBit, h]

/-- The shift register after a bit decided with normal polarity, as a number (41_symbol_codec.md R76, 20_memory.md R46). -/
theorem shiftIn_decideBit_normal {n : Nat} (reg : BitVec n) (a ref : Int) :
    shiftIn reg (decideBit a ref .normal) = BitVec.ofNat n (2 * reg.toNat + if ref ≤ a then 1 else 0) := by
  simp [shiftIn_eq, decideBit_iff]

/-! ### The driven operation -/

/-- A driven RXSAMPLE that the operation completes. -/
theorem exec_rxsample_done {i q : BitVec 16} {s t : State} (hp : s.phase ≠ .halted) (h : opRxsample i q s = .done t) :
    exec (.rxsample i q) s = .next t := by
  change perform (opRxsample i q) s = .next t
  rw [perform_running hp, issue_done h, id]

/-- In `SEARCHING_HEADER` it is the one bit, decided with normal polarity, with half the amplitude in `REF`. -/
theorem exec_rxsample_searching {i q : BitVec 16} {s : State} (hp : s.phase ≠ .halted) (hc : s.cycOpen = true)
    (hm : s.decMode = .searchingHeader) :
    exec (.rxsample i q) s = .next (searchBit (decideBit (amp s.cfg ⟨i, q⟩) s.ref.toInt .normal)
      { s with ref := BitVec.ofInt 32 (half (amp s.cfg ⟨i, q⟩)) }) :=
  exec_rxsample_done hp (opRxsample_searching hc hm)

/-- Settles O15: one case for each answer of the header match, on the register with the decided bit shifted in. -/
theorem rxsampleSearchesTheHeader : Obligations.RxsampleSearchesTheHeader := by
  unfold Obligations.RxsampleSearchesTheHeader
  intro s i q hp hc hm a h r
  have hreg : shiftIn s.hdrReg (decideBit (amp s.cfg ⟨i, q⟩) s.ref.toInt .normal) = h := shiftIn_decideBit_normal ..
  rw [exec_rxsample_searching hp hc hm]
  refine ⟨fun hn => ?_, fun hn hi => ?_, fun hn hi => ?_⟩
  · rw [searchBit_match (hreg ▸ headerMatch_normal hn)]
    rfl
  · rw [searchBit_match (hreg ▸ headerMatch_inverted hn hi)]
    rfl
  · rw [searchBit_noMatch (hreg ▸ headerMatch_none hn hi), hreg]
    rfl

end Sys2Proof.Machine

/-! PROOFS. The start of a decode cycle and the preamble matcher: RXBEGIN and PFEED (43_preamble.md R95 to R99). -/

namespace Sys2Proof.Machine

/-! ### A driven operation, and a trace from its first operation on -/

theorem perform_done {op : State → OpResult} {s t : State} (hp : s.phase ≠ .halted) (h : op s = .done t) :
    perform op s = .next t := by
  rw [perform_running hp, issue_done h, id]

theorem perform_raised {op : State → OpResult} {s t : State} {c : FaultCode} (hp : s.phase ≠ .halted)
    (h : op s = .raised c t) : perform op s = .next (faultEntry c t) := by
  rw [perform_running hp, issue_raised h]

theorem execList_cons_next {i : Instr} {is : List Instr} {s t : State} (h : exec i s = .next t) :
    execList (i :: is) s = execList is t := by
  rw [execList, h]

/-! ### RXBEGIN (R99) -/

/-- The word of an instruction is the only word that decodes to it (30_encoding.md R60). -/
theorem decode_eq_ok_iff {w : OpWord} {i : Instr} : decode w = .ok i ↔ w = encode i :=
  ⟨fun h => (encodeDecodeRoundTrip w i h).symm, fun h => h ▸ decodeEncodeRoundTrip i⟩

theorem exec_rxbegin_closed {s : State} (hp : s.phase ≠ .halted) (hc : s.cycOpen = false) :
    exec .rxbegin s =
      .next { s with cycOpen := true, preIdx := 0, preFound := false, outCount := 0, outOvf := false } :=
  perform_done hp (opRxbegin_closed hc)

theorem exec_rxbegin_open {s : State} (hp : s.phase ≠ .halted) (hc : s.cycOpen = true) :
    exec .rxbegin s = .next (faultEntry .seqErr s) :=
  perform_raised hp (opRxbegin_open hc)

/-- Settles O22: the word is RXBEGIN's encoding, and `CYC_OPEN` decides between opening the cycle and the fault. -/
theorem rxbeginOpensAFreshCycle : Obligations.RxbeginOpensAFreshCycle := by
  unfold Obligations.RxbeginOpensAFreshCycle
  exact ⟨fun w => decode_eq_ok_iff, fun s hp => ⟨exec_rxbegin_closed hp, exec_rxbegin_open hp⟩⟩

/-! ### One byte to the matcher (R95 to R98) -/

theorem pfeedInternal_match {b : Byte} {s : State} (hf : s.preFound = false)
    (hb : s.cfg.preRom[s.preIdx.toNat]? = some b) :
    pfeedInternal b s =
      .ok { s with preIdx := s.preIdx + 1, preFound := decide ((s.preIdx + 1).toNat = Config.preLen) } := by
  simp [pfeedInternal, romRead, hf, hb]

/-- After a mismatch the index is 0, whatever the byte: it is not compared again (R96). -/
theorem pfeedInternal_mismatch {b p : Byte} {s : State} (hf : s.preFound = false)
    (hp : s.cfg.preRom[s.preIdx.toNat]? = some p) (hb : b ≠ p) :
    pfeedInternal b s = .ok { s with preIdx := 0 } := by
  simp [pfeedInternal, romRead, hf, hp, hb]

theorem opPfeed_open {b : Byte} {s t : State} (hc : s.cycOpen = true) (h : pfeedInternal b s = .ok t) :
    opPfeed b s = .done t := by
  simp [opPfeed, hc, h]

/-- In a cycle, a driven PFEED leaves what the matcher answers. -/
theorem exec_pfeed_open {b : Byte} {s t : State} (hp : s.phase ≠ .halted) (hc : s.cycOpen = true)
    (h : pfeedInternal b s = .ok t) : exec (.pfeed b) s = .next t :=
  perform_done hp (opPfeed_open hc h)

/-! ### The preamble byte by byte, from the start of the matching -/

section PreambleOfTwoBytes

variable {s : State} {p0 p1 : Byte} (hp : s.phase ≠ .halted) (hc : s.cycOpen = true) (hi : s.preIdx = 0)
  (hf : s.preFound = false) (hpre : s.cfg.preamble = #v[p0, p1])

include hpre in
theorem preRom_first : s.cfg.preRom[0]? = some p0 := by simp [Config.preRom, hpre]

include hpre in
theorem preRom_second : s.cfg.preRom[1]? = some p1 := by simp [Config.preRom, hpre]

include hp hc hi hf hpre

theorem exec_pfeed_first : exec (.pfeed p0) s = .next { s with preIdx := 1 } := by
  have hrom : s.cfg.preRom[s.preIdx.toNat]? = some p0 := hi ▸ preRom_first hpre
  rw [exec_pfeed_open hp hc (pfeedInternal_match hf hrom), hi]
  simp [hf, Config.preLen]

theorem exec_pfeed_first_wrong {x : Byte} (hx : x ≠ p0) : exec (.pfeed x) s = .next s := by
  have hrom : s.cfg.preRom[s.preIdx.toNat]? = some p0 := hi ▸ preRom_first hpre
  rw [exec_pfeed_open hp hc (pfeedInternal_mismatch hf hrom hx), ← hi]

omit hi in
theorem exec_pfeed_second :
    exec (.pfeed p1) { s with preIdx := 1 } = .next { s with preIdx := 2, preFound := true } :=
  exec_pfeed_open hp hc (pfeedInternal_match hf (preRom_second hpre))

theorem exec_pfeed_second_wrong {x : Byte} (hx : x ≠ p1) : exec (.pfeed x) { s with preIdx := 1 } = .next s := by
  have hback := pfeedInternal_mismatch (s := { s with preIdx := 1 }) hf (preRom_second hpre) hx
  rw [← hi] at hback
  exact exec_pfeed_open hp hc hback

end PreambleOfTwoBytes

/-- Settles O24: the matcher only moves from index 0 to 1 to found, and back to its start at a wrong second byte, `p0`
included. -/
theorem preambleSequencesAreFoundAsStated : Obligations.PreambleSequencesAreFoundAsStated := by
  unfold Obligations.PreambleSequencesAreFoundAsStated
  intro s p0 p1 hp hc hi hf hpre
  have first := exec_pfeed_first hp hc hi hf hpre
  have firstWrong {x : Byte} (hx : x ≠ p0) := exec_pfeed_first_wrong hp hc hi hf hpre hx
  have second := exec_pfeed_second hp hc hf hpre
  have secondWrong {x : Byte} (hx : x ≠ p1) := exec_pfeed_second_wrong hp hc hi hf hpre hx
  have found : execList [.pfeed p0, .pfeed p1] s = .next { s with preIdx := 2, preFound := true } := by
    rw [execList_cons_next first, execList_cons_next second, execList]
  have restarts {x : Byte} (hx : x ≠ p1) : execList [.pfeed p0, .pfeed x] s = .next s := by
    rw [execList_cons_next first, execList_cons_next (secondWrong hx), execList]
  refine ⟨found, fun x hx => firstWrong hx, fun x hx => restarts hx, fun x hx => ?_, fun hne => ?_⟩
  · calc execList ([.pfeed p0, .pfeed x] ++ [.pfeed p0, .pfeed p1]) s
        = execList [.pfeed p0, .pfeed p1] s := execList_append _ _ _ _ (restarts hx)
      _ = .next { s with preIdx := 2, preFound := true } := found
  · calc execList ([.pfeed p0, .pfeed p0] ++ [.pfeed p1]) s
        = execList [.pfeed p1] s := execList_append _ _ _ _ (restarts hne)
      _ = .next s := by rw [execList_cons_next (firstWrong hne.symm), execList]

end Sys2Proof.Machine

/-! PROOFS. The transmit encoder: the size check of TXJOB and the slots of a frame (44_tx_encoder.md R102 to R105). -/

namespace Sys2Proof.Machine

/-! ### The size check (R103) -/

theorem jobFits_iff (c : Config) (n : Nat) :
    jobFits c n = true ↔ n ≤ c.txMaxBytes ∧ c.guardLen + 20 * 3 * n ≤ c.txBufLen := by
  rw [jobFits, Bool.and_eq_true, decide_eq_true_eq, decide_eq_true_eq, usedSlots, Config.txRepeat]

theorem jobFits_eq_false_iff (c : Config) (n : Nat) :
    jobFits c n = false ↔ c.txBufLen < c.guardLen + 20 * 3 * n ∨ c.txMaxBytes < n := by
  rw [← Bool.not_eq_true, jobFits_iff]
  omega

/-! ### The slots of a frame (R102, R104, R105) -/

theorem frame_getElem?_guard {c : Config} {bytes : List Byte} {g : Nat} (hg : g < c.guardLen) :
    (frame c bytes)[g]? = some (guardSymbol c) := by
  rw [frame, List.append_assoc, List.getElem?_append_left (by simpa using hg), List.getElem?_replicate_of_lt hg]

/-- Symbol `k` of byte `j` in repetition `r`. -/
theorem frame_getElem?_unit {c : Config} {bytes : List Byte} {r j k : Nat} {b : Byte} (hr : r < 3)
    (hj : bytes[j]? = some b) (hk : k < 20) :
    (frame c bytes)[c.guardLen + 20 * (r * bytes.length + j) + k]? = (unitSymbols c b)[k]? := by
  have hjn : j < bytes.length := (List.getElem?_eq_some_iff.1 hj).1
  have hslot : 20 * (r * bytes.length + j) + k = r * (repetition c bytes).length + (20 * j + k) := by
    rw [repetition_length]; ring
  have hcoded := replicate_flatten_get (repetition c bytes) Config.txRepeat r (20 * j + k) hr
    (by rw [repetition_length]; omega)
  have hunit := repetition_get c bytes j k b hj hk
  obtain ⟨x, hx⟩ : ∃ x, (unitSymbols c b)[k]? = some x :=
    ⟨_, List.getElem?_eq_getElem (by rwa [unitSymbols_length])⟩
  rw [hx] at hunit ⊢
  rw [hunit, ← hslot] at hcoded
  rw [frame, List.append_assoc, List.getElem?_append_right (by simp; omega), List.length_replicate,
    Nat.add_assoc, Nat.add_sub_cancel_left, List.getElem?_append_left (List.getElem?_eq_some_iff.1 hcoded).1, hcoded]

/-- The byte's own bits follow the header's 12, most significant first. -/
theorem unitSymbols_getElem?_byte {c : Config} {b : Byte} {k : Nat} (hk : k < 8) :
    (unitSymbols c b)[12 + k]? = some (encBit c (b.getLsbD (7 - k))) := by
  rw [unitSymbols, List.getElem?_map, List.getElem?_append_right (by simp [bitsMsbFirst])]
  simp [bitsMsbFirst, hk]

/-- The last coded slot holds the last bit of the last byte. -/
theorem frame_getElem?_last_coded {c : Config} {bytes : List Byte} {b : Byte}
    (hb : bytes[bytes.length - 1]? = some b) :
    (frame c bytes)[c.guardLen + 20 * 3 * bytes.length - 1]? = some (encBit c (b.getLsbD 0)) := by
  have hpos : bytes.length - 1 < bytes.length := (List.getElem?_eq_some_iff.1 hb).1
  have hslot : c.guardLen + 20 * 3 * bytes.length - 1 =
      c.guardLen + 20 * (2 * bytes.length + (bytes.length - 1)) + (12 + 7) := by omega
  rw [hslot, frame_getElem?_unit (by omega) hb (by omega), unitSymbols_getElem?_byte (by omega)]

/-! ### TXJOB outside a cycle (R102, R103, R106) -/

theorem opTxjob_oversize {s : State} (hc : s.cycOpen = false) (hj : jobFits s.cfg s.txN = false) :
    opTxjob s = rejectJob s := by
  simp [opTxjob, hc, hj]

/-- Under `REJECT_CONTINUE` an oversize job leaves its result and nothing else. -/
theorem exec_txjob_rejectContinue {s : State} (hp : s.phase ≠ .halted) (hc : s.cycOpen = false)
    (hj : jobFits s.cfg s.txN = false) (hq : s.cfg.txSizePolicy = .rejectContinue) :
    exec .txjob s = .next { s with txResult := .size } :=
  perform_done hp (by rw [opTxjob_oversize hc hj, rejectJob, hq])

/-- Under `FATAL` it enters the fault with its result set (log entry 11). -/
theorem exec_txjob_fatal {s : State} (hp : s.phase ≠ .halted) (hc : s.cycOpen = false)
    (hj : jobFits s.cfg s.txN = false) (hq : s.cfg.txSizePolicy = .fatal) :
    exec .txjob s = .next (faultEntry .txSize { s with txResult := .size }) :=
  perform_raised hp (by rw [opTxjob_oversize hc hj, rejectJob, hq])

/-- A job that fits, with its bytes readable, completes, and then `TXB` holds the frame over its whole length. -/
theorem exec_txjob_fits {s : State} {bytes : List Byte} (hp : s.phase ≠ .halted) (hc : s.cycOpen = false)
    (hj : jobFits s.cfg s.txN = true) (hb : memReadRange s.cfg.txMaxBytes s.jobb 0 s.txN = .ok bytes) :
    ∃ m, exec .txjob s = .next { s with txb := m, txResult := .ok } ∧
      ∀ p, p < s.cfg.txBufLen → Memory.load m p = (frame s.cfg bytes)[p]? := by
  have hlen : (frame s.cfg bytes).length = s.cfg.txBufLen :=
    frame_length (by rwa [(memReadRange_eq_ok.1 hb).1])
  obtain ⟨m, hm, hload⟩ := memWriteRange_ok (m := s.txb) (k := 0) (vs := frame s.cfg bytes)
    (cap := s.cfg.txBufLen) (by omega)
  refine ⟨m, perform_done hp (by simp [opTxjob, hc, hj, encodeJob, hb, hm]), fun p hpn => ?_⟩
  rw [hload, if_pos ⟨by omega, by omega⟩, Nat.sub_zero]

/-! ### The oversize job and the exact fit -/

/-- Neither policy's rejection stores to `TXB`. -/
theorem exec_txjob_oversize {s : State} (hp : s.phase ≠ .halted) (hc : s.cycOpen = false)
    (hj : jobFits s.cfg s.txN = false) :
    ∃ t, exec .txjob s = .next t ∧ t.txb = s.txb ∧
      (s.cfg.txSizePolicy = .rejectContinue → t = { s with txResult := .size }) := by
  cases hq : s.cfg.txSizePolicy with
  | rejectContinue => exact ⟨_, exec_txjob_rejectContinue hp hc hj hq, rfl, fun _ => rfl⟩
  | fatal => exact ⟨_, exec_txjob_fatal hp hc hj hq, faultEntry_txb .., nofun⟩

/-- Settles O32: the size check alone decides; with an exact fit the buffer's last slot is the last coded slot, or the last
guard slot when there is no byte. -/
theorem txjobRejectsAnOversizeJob : Obligations.TxjobRejectsAnOversizeJob := by
  unfold Obligations.TxjobRejectsAnOversizeJob
  refine fun s hp hc => ⟨fun hover => ?_, fun hexact hmax hfilled => ?_⟩
  · exact exec_txjob_oversize hp hc ((jobFits_eq_false_iff ..).2 hover)
  · obtain ⟨bytes, hb⟩ := memReadRange_of_filled hfilled hmax
    obtain ⟨hlen, hread⟩ := memReadRange_eq_ok.1 hb
    obtain ⟨m, hexec, hload⟩ := exec_txjob_fits hp hc ((jobFits_iff ..).2 ⟨hmax, hexact.le⟩) hb
    refine ⟨_, hexec, rfl, fun hpos => ?_, fun hzero hbuf => ?_⟩
    · obtain ⟨b, hlast⟩ : ∃ b, bytes[bytes.length - 1]? = some b :=
        ⟨_, List.getElem?_eq_getElem (by omega)⟩
      have hjob : Memory.load s.jobb (s.txN - 1) = some b := by
        simpa [← hlen, hlast] using (hread (s.txN - 1) (by omega)).2
      calc Memory.load m (s.cfg.txBufLen - 1)
          = (frame s.cfg bytes)[s.cfg.guardLen + 20 * 3 * bytes.length - 1]? := by
            rw [hload _ (by omega), ← hexact, hlen]
        _ = (Memory.load s.jobb (s.txN - 1)).map fun b => encBit s.cfg (b.getLsbD 0) := by
            rw [frame_getElem?_last_coded hlast, hjob, Option.map_some]
    · exact (hload _ (by omega)).trans (frame_getElem?_guard (by omega))

end Sys2Proof.Machine

/-! PROOFS. The phase `HALTED`: which steps change nothing there, and the one way out (60_exceptions.md R125). -/

namespace Sys2Proof.Machine

/-! ### An operation and a word in `HALTED` -/

/-- Every operation but RESET is performed, and `perform` ignores it in `HALTED`. -/
theorem exec_halted {i : Instr} {s : State} (hp : s.phase = .halted) (hi : i ≠ .reset) : exec i s = .next s := by
  cases i with
  | reset => exact absurd rfl hi
  | rxbegin | rxsample _ _ | rxend | txjob | pfeed _ | stopreq => exact perform_halted hp

/-- An illegal word is ignored in `HALTED` as well: there it raises no `BAD_OP` (R126). -/
theorem runWord_halted {w : OpWord} {s : State} (hp : s.phase = .halted) (hw : decode w ≠ .ok .reset) :
    runWord w s = .next s := by
  unfold runWord
  split
  case h_1 i hi => exact exec_halted hp fun hreset => hw (hreset ▸ hi)
  case h_2 => rw [illegalWord_eq, if_pos hp]

/-! ### The phase machine and the step in `HALTED` -/

theorem pendingRequest_halted {s : State} (hp : s.phase = .halted) : pendingRequest s = none := by
  simp [pendingRequest, hp]

theorem phaseAction_halted {s : State} (hp : s.phase = .halted) : phaseAction s = .next s := by
  simp [phaseAction, hp]

/-- A step from `HALTED` that runs no RESET does nothing but take an input. -/
theorem step_halted {s t : State} (hp : s.phase = .halted) (h : step s = .next t) (hr : ¬ Drives s .reset) :
    ∃ rest, t = s.withInputs rest := by
  have hwait := pendingRequest_halted hp
  obtain ⟨-, ⟨w, rest, hin, hrun⟩ | ⟨rest, -, hquiet⟩⟩ := step_eq_next h
  · rw [runWord_halted (by simpa using hp) fun hw => hr ⟨w, rest, hin, hw⟩] at hrun
    cases hrun
    exact ⟨rest, rfl⟩
  · obtain ⟨r, a, hreq, -⟩ | ⟨r, hreq, -⟩ | ⟨-, -, hact⟩ := hquiet
    · cases hwait.symm.trans hreq
    · cases hwait.symm.trans hreq
    · rw [phaseAction_halted (by simpa using hp)] at hact
      cases hact
      exact ⟨rest, rfl⟩

/-- Settles O9: `perform` ignores what is driven in `HALTED`, RESET brings `BOOT`, and any other step keeps the phase. -/
theorem haltedIgnoresEverythingButReset : Obligations.HaltedIgnoresEverythingButReset := by
  unfold Obligations.HaltedIgnoresEverythingButReset
  refine ⟨fun w s => runWord_halted, fun s _ => ⟨resetCore s, exec_reset_next s, rfl⟩, fun s t hp h ht => ?_⟩
  by_contra hr
  obtain ⟨rest, rfl⟩ := step_halted hp h hr
  exact ht hp

end Sys2Proof.Machine

/-! PROOFS. What a step can do, as one list of moves: each invariant below is a case analysis over it. -/

namespace Sys2Proof.Machine

/-- One step of the core that is no RESET, from the state with its input taken: the rows of 45_orchestrator.md R111 and R112, the
driven operations, and fault entry. `move_of_step` ties it to `step`. -/
inductive Move (s : State) : State → Prop
  /-- a wait goes on, or `HALTED` ignores what comes -/
  | stay : Move s s
  /-- a driven operation completes -/
  | driven {op : State → OpResult} {t : State} (hop : IsOp op) (hp : s.phase ≠ .halted) (h : op s = .done t) : Move s t
  /-- a fault is entered, by an operation, an illegal word or an agent's `error` -/
  | faulted {c : FaultCode} {u : State} (hp : s.phase ≠ .halted) (hc : c ≠ .none)
      (hu : u = s ∨ (jobFits s.cfg s.txN = false ∧ u = { s with txResult := .size })) : Move s (faultEntry c u)
  | configured (hp : s.phase = .boot) : Move s (s.goTo .acqRx)
  | received {xs : List Sample} {m : Memory Sample} (hp : s.phase = .acqRx) (hl : xs.length = s.cfg.rxBufLen)
      (hm : memWriteRange s.cfg.rxBufLen s.rxb 0 xs = .ok m) : Move s ({ s with rxb := m }.goTo .decode)
  | hostAnswered {bytes : List Byte} {m : Memory Byte} (hp : s.phase = .hostRead) (hl : bytes.length ≤ s.cfg.txMaxBytes)
      (hm : memWriteRange s.cfg.txMaxBytes s.jobb 0 bytes = .ok m) :
      Move s (afterHostRead { s with txN := bytes.length, jobb := m })
  | hostStopped {bytes : List Byte} {m : Memory Byte} (hp : s.phase = .hostRead) (hl : bytes.length ≤ s.cfg.txMaxBytes)
      (hm : memWriteRange s.cfg.txMaxBytes s.jobb 0 bytes = .ok m) :
      Move s { s with txN := bytes.length, jobb := m, midPhase := true }
  | slotAcquired (hp : s.phase = .encode) : Move s { s with midPhase := true }
  | bufferSubmitted (hp : s.phase = .submitTx) : Move s ((s.emit (.submitted s.txb)).goTo .checkStop)
  | released (hp : s.phase = .shutdown) : Move s ((s.emit .released).goTo .halted)
  | passBegun {t : State} (hp : s.phase = .decode) (h : opRxbegin s = .done t) : Move s { t with sidx := 0, midPhase := true }
  | sampleTaken {x : Sample} {t : State} (hp : s.phase = .decode) (hmid : s.midPhase = true) (hi : s.sidx < s.cfg.rxBufLen)
      (h : opRxsample x.i x.q s = .done t) : Move s { t with sidx := t.sidx + 1 }
  | passEnded (hp : s.phase = .decode) : Move s (s.goTo .report)
  | reported {t : State} (hp : s.phase = .report) (h : opRxend s = .done t) : Move s (t.goTo .hostRead)
  | stopIssued {t : State} (hp : s.phase = .hostRead) (h : opStopreq s = .done t) : Move s (afterHostRead t)
  | jobEncoded {t : State} (hp : s.phase = .encode) (h : opTxjob s = .done t) : Move s (afterTxjob t)
  | checked (hp : s.phase = .checkStop) : Move s (s.goTo (if s.stopFlag then .shutdown else .acqRx))

/-! ### Where each part of a step moves -/

theorem isOp_rxbegin : IsOp opRxbegin := .inl rfl
theorem isOp_rxsample (i q : BitVec 16) : IsOp (opRxsample i q) := .inr (.inl ⟨i, q, rfl⟩)
theorem isOp_rxend : IsOp opRxend := .inr (.inr (.inl rfl))
theorem isOp_txjob : IsOp opTxjob := .inr (.inr (.inr (.inl rfl)))
theorem isOp_pfeed (b : Byte) : IsOp (opPfeed b) := .inr (.inr (.inr (.inr (.inl ⟨b, rfl⟩))))
theorem isOp_stopreq : IsOp opStopreq := .inr (.inr (.inr (.inr (.inr rfl))))

/-- An issued operation that the orchestrator follows by `after` faults as any other, or completes. -/
theorem move_of_issue {op : State → OpResult} {after : State → State} {s t : State} (hop : IsOp op) (hp : s.phase ≠ .halted)
    (h : issue op after s = .next t) (hdone : ∀ u, op s = .done u → Move s (after u)) : Move s t := by
  obtain ⟨u, hu, rfl⟩ | ⟨c, u, hu, rfl⟩ := issue_eq_next h
  · exact hdone u hu
  · obtain ⟨hc, hu⟩ := op_raised hop hu
    exact .faulted hp hc hu

theorem move_of_exec {i : Instr} {s t : State} (hi : i ≠ .reset) (h : exec i s = .next t) : Move s t := by
  obtain ⟨hr, -⟩ | ⟨-, rfl⟩ | ⟨-, hp, op, hop, hdone | ⟨c, u, hu, rfl⟩⟩ := exec_eq_next h
  · exact absurd hr hi
  · exact .stay
  · exact .driven hop hp hdone
  · obtain ⟨hc, hu⟩ := op_raised hop hu
    exact .faulted hp hc hu

theorem move_of_illegalWord {s t : State} (h : illegalWord s = .next t) : Move s t := by
  rw [illegalWord_eq] at h
  cases h
  split
  · exact .stay
  · exact .faulted ‹_› (by simp) (.inl rfl)

theorem move_of_takeReceiveBuffer {xs : List Sample} {s t : State} (hp : s.phase = .acqRx)
    (h : takeReceiveBuffer xs s = .next t) : Move s t := by
  unfold takeReceiveBuffer at h
  split at h <;> [skip; cases h]
  split at h <;> cases h
  exact .received hp ‹_› ‹_›

theorem move_of_takeHostAnswer {bytes : List Byte} {sd : Bool} {s t : State} (hp : s.phase = .hostRead)
    (h : takeHostAnswer bytes sd s = .next t) : Move s t := by
  unfold takeHostAnswer at h
  split at h <;> [skip; cases h]
  split at h <;> [cases h; skip]
  obtain ⟨m, hm, rfl⟩ := job_eq_ok ‹_›
  split at h <;> cases h
  · exact .hostStopped hp ‹_› hm
  · exact .hostAnswered hp ‹_› hm

/-- An answer the core waits for is taken; an agent's `error` enters the fault of the phase (60_exceptions.md R124). -/
theorem move_of_takeAnswer {r : Request} {a : Answer} {s t : State} (hr : pendingRequest s = some r)
    (h : takeAnswer r a s = .next t) : Move s t := by
  have hphase := pendingRequest_eq_some hr
  have error {c : FaultCode} (hp : s.phase ≠ .halted) (hc : c ≠ .none) : Move s (faultEntry c s) := .faulted hp hc (.inl rfl)
  unfold takeAnswer at h
  split at h
  case h_1 ok =>
    have hp : s.phase = .boot := by simpa using hphase
    cases ok <;> cases h
    · exact error (by simp [hp]) (by simp)
    · exact .configured hp
  case h_2 => exact move_of_takeReceiveBuffer (by simpa using hphase) h
  case h_3 =>
    have hp : s.phase = .acqRx := by simpa using hphase
    cases h
    exact error (by simp [hp]) (by simp)
  case h_4 =>
    obtain ⟨hp, -⟩ : s.phase = .hostRead ∧ s.midPhase = false := by simpa using hphase
    exact move_of_takeHostAnswer hp h
  case h_5 ok =>
    obtain ⟨hp, -⟩ : s.phase = .encode ∧ s.midPhase = false := by simpa using hphase
    cases ok <;> cases h
    · exact error (by simp [hp]) (by simp)
    · exact .slotAcquired hp
  case h_6 ok =>
    have hp : s.phase = .submitTx := by simpa using hphase
    cases ok <;> cases h
    · exact error (by simp [hp]) (by simp)
    · exact .bufferSubmitted hp
  case h_7 =>
    cases h
    exact .released (by simpa using hphase)
  case h_8 => cases h

theorem move_of_decodeStep {s t : State} (hp : s.phase = .decode) (h : decodeStep s = .next t) : Move s t := by
  have hrun : s.phase ≠ .halted := by simp [hp]
  unfold decodeStep at h
  split at h
  · split at h
    · split at h <;> [cases h; skip]
      exact move_of_issue (isOp_rxsample ..) hrun h fun u hu => .sampleTaken hp ‹_› ‹_› hu
    · cases h
      exact .passEnded hp
  · exact move_of_issue isOp_rxbegin hrun h fun u hu => .passBegun hp hu

theorem move_of_phaseAction {s t : State} (h : phaseAction s = .next t) : Move s t := by
  unfold phaseAction at h
  split at h
  case h_3 hp => exact move_of_decodeStep hp h
  case h_4 hp => exact move_of_issue isOp_rxend (by simp [hp]) h fun u hu => .reported hp hu
  case h_5 hp =>
    split at h
    · exact move_of_issue isOp_stopreq (by simp [hp]) h fun u hu => .stopIssued hp hu
    · cases h; exact .stay
  case h_6 hp =>
    split at h
    · exact move_of_issue isOp_txjob (by simp [hp]) h fun u hu => .jobEncoded hp hu
    · cases h; exact .stay
  case h_8 hp => cases h; exact .checked hp
  all_goals cases h; exact .stay

/-- Every step is a RESET or one of the moves, from the state with its input taken. -/
theorem move_of_step {s t : State} (h : step s = .next t) :
    s.cfg.wf = true ∧ ∃ rest, (s.inputs = rest ∨ ∃ x, s.inputs = x :: rest) ∧
      ((Drives s .reset ∧ t = resetCore (s.withInputs rest)) ∨ Move (s.withInputs rest) t) := by
  obtain ⟨hwf, ⟨w, rest, hin, hrun⟩ | ⟨rest, -, ⟨r, a, hr, hin, ha⟩ | ⟨r, -, hin, -, rfl⟩ | ⟨-, hin, ha⟩⟩⟩ :=
    step_eq_next h
  · refine ⟨hwf, rest, .inr ⟨_, hin⟩, ?_⟩
    unfold runWord at hrun
    split at hrun
    case h_1 i hi =>
      by_cases hreset : i = .reset
      · subst hreset
        cases hrun
        exact .inl ⟨⟨w, rest, hin, hi⟩, rfl⟩
      · exact .inr (move_of_exec hreset hrun)
    case h_2 => exact .inr (move_of_illegalWord hrun)
  · exact ⟨hwf, rest, .inr ⟨_, hin⟩, .inr (move_of_takeAnswer hr ha)⟩
  · exact ⟨hwf, rest, hin.imp_right fun hin => ⟨_, hin⟩, .inr .stay⟩
  · exact ⟨hwf, rest, hin.imp_right fun hin => ⟨_, hin⟩, .inr (move_of_phaseAction ha)⟩

end Sys2Proof.Machine

/-! PROOFS. The amplitude, its half in `REF`, and the decision on data symbols (41_symbol_codec.md R72 to R80). -/

namespace Sys2Proof.Machine

/-- The amplitude's range under a well-formed configuration: 16 signed bits, shifted by at most 15 (R72, R73). -/
theorem amp_bound {c : Config} (hwf : c.wf = true) (x : Sample) : -(2 ^ 30) ≤ amp c x ∧ amp c x ≤ 2 ^ 30 - 2 ^ 15 := by
  obtain ⟨hshift, -⟩ := (config_wf_iff c).1 hwf
  have hlo : (1 : Int) ≤ 2 ^ c.ampShift := one_le_pow₀ (by norm_num)
  have hhi : (2 : Int) ^ c.ampShift ≤ 2 ^ 15 := pow_le_pow_right₀ (by norm_num) hshift
  have hi1 : -(2 ^ 15) ≤ x.i.toInt := BitVec.le_toInt x.i
  have hi2 : x.i.toInt < 2 ^ 15 := BitVec.toInt_lt
  unfold amp
  constructor <;> nlinarith

theorem half_amp_bound {c : Config} (hwf : c.wf = true) (x : Sample) :
    -(2 ^ 29) ≤ half (amp c x) ∧ half (amp c x) ≤ 2 ^ 29 := by
  have := amp_bound hwf x
  have := half_bound (amp c x)
  omega

/-- `REF` holds half an amplitude exactly (10_state.md R25). -/
theorem toInt_ofInt_half_amp {c : Config} (hwf : c.wf = true) (x : Sample) :
    (BitVec.ofInt 32 (half (amp c x))).toInt = half (amp c x) := by
  have := half_amp_bound hwf x
  exact toInt_ofInt_32 _ (by omega) (by omega)

/-- Settles O12: the bound on the amplitude gives one on its half, which 32 bits hold. -/
theorem referenceHoldsHalfTheAmplitudeExactly : Obligations.ReferenceHoldsHalfTheAmplitudeExactly := by
  unfold Obligations.ReferenceHoldsHalfTheAmplitudeExactly
  exact fun c x hwf => ⟨(amp_bound hwf x).1, (amp_bound hwf x).2, toInt_ofInt_half_amp hwf x⟩

/-! ### Data symbols (R78, R80) -/

/-- The amplitude of the data symbol of 1. -/
def dataAmp (c : Config) : Int := (c.symMag : Int) * 2 ^ c.ampShift

theorem dataAmp_pos {c : Config} (hwf : c.wf = true) : 0 < dataAmp c := by
  obtain ⟨-, -, -, -, -, hmag, -⟩ := (config_wf_iff c).1 hwf
  have : (0 : Int) < c.symMag := by omega
  unfold dataAmp
  positivity

theorem amp_encBit {c : Config} (hwf : c.wf = true) (b : Bool) :
    amp c (encBit c b) = if b then dataAmp c else -dataAmp c := by
  obtain ⟨htrue, hfalse, -⟩ := symbolsHaveTheirMagnitudes c hwf
  cases b
  · simp [amp, hfalse.1, dataAmp]
  · simp [amp, htrue.1, dataAmp]

/-- A reference that a data symbol is decided against without error: strictly between the two data amplitudes. -/
def RefBetween (c : Config) (r : Int) : Prop := -dataAmp c < r ∧ r < dataAmp c

/-- The reference that a data symbol leaves is such a one. -/
theorem refBetween_half_amp {c : Config} (hwf : c.wf = true) (b : Bool) : RefBetween c (half (amp c (encBit c b))) := by
  have hpos := dataAmp_pos hwf
  have := half_bound (dataAmp c)
  rw [amp_encBit hwf]
  unfold RefBetween
  cases b
  · simp only [half_neg, Bool.false_eq_true, if_false]
    omega
  · simp only [if_true]
    omega

/-- Under `NORMAL` the bit comes back; the reference may also equal the amplitude of a 1. -/
theorem decideBit_normal_encBit {c : Config} (hwf : c.wf = true) (b : Bool) {r : Int} (h1 : -dataAmp c < r)
    (h2 : r ≤ dataAmp c) : decideBit (amp c (encBit c b)) r .normal = b := by
  rw [amp_encBit hwf]
  cases b <;> simp [decideBit] <;> omega

/-- Under `INVERTED` its complement does. -/
theorem decideBit_inverted_encBit {c : Config} (hwf : c.wf = true) (b : Bool) {r : Int} (hr : RefBetween c r) :
    decideBit (amp c (encBit c b)) r .inverted = !b := by
  obtain ⟨h1, h2⟩ := hr
  rw [amp_encBit hwf]
  cases b <;> simp [decideBit] <;> omega

/-- Settles O13: the reference left by a data symbol lies strictly between the two amplitudes that are compared with it. -/
theorem dataSymbolsAreRecovered : Obligations.DataSymbolsAreRecovered := by
  unfold Obligations.DataSymbolsAreRecovered
  intro c b p hwf
  have hr := refBetween_half_amp hwf p
  refine ⟨?_, ?_, decideBit_normal_encBit hwf b hr.1 hr.2.le, decideBit_inverted_encBit hwf b hr⟩
  · rw [amp_encBit hwf]
    cases b <;> simp [dataAmp]
  · rw [amp_encBit hwf]
    cases p <;> simp [dataAmp, half_neg]

end Sys2Proof.Machine

/-! PROOFS. The invariant: every operation, every phase change and fault entry keep it, and so every step does. -/

namespace Sys2Proof.Machine

/-! ### Facts of the shared operations -/

/-- A range write that answers lay within the space, unless there was nothing to write. -/
theorem memWriteRange_le {α : Type} {cap k : Nat} {m m' : Memory α} {vs : List α}
    (h : memWriteRange cap m k vs = .ok m') : vs = [] ∨ k + vs.length ≤ cap := by
  induction vs generalizing m k with
  | nil => exact .inl rfl
  | cons v vs ih =>
    simp only [memWriteRange] at h
    split at h <;> [cases h; skip]
    have hk := (memWrite_eq_ok.1 ‹_›).1
    have := ih h
    right
    obtain rfl | hle := this
    · exact hk
    · simp only [List.length_cons]
      omega

/-- What every element reads as after a range write. -/
theorem memWriteRange_load {α : Type} {cap k : Nat} {m m' : Memory α} {vs : List α}
    (h : memWriteRange cap m k vs = .ok m') (j : Nat) :
    Memory.load m' j = if k ≤ j ∧ j < k + vs.length then vs[j - k]? else Memory.load m j := by
  obtain rfl | hle := memWriteRange_le h
  · cases h
    rw [if_neg (by simp)]
  · obtain ⟨m'', hm'', hload⟩ := memWriteRange_ok (m := m) hle
    cases h.symm.trans hm''
    exact hload j

/-- A range write from index 0 fills the space as far as its list is long. -/
theorem memWriteRange_filled {α : Type} {cap n : Nat} {m m' : Memory α} {vs : List α}
    (h : memWriteRange cap m 0 vs = .ok m') (hn : vs.length = n) : Memory.filled m' n := by
  intro k hk
  rw [memWriteRange_load h, if_pos ⟨Nat.zero_le k, by omega⟩]
  simpa [hn] using hk

/-- A feed reads the configuration and the matcher's two registers alone. -/
theorem pfeedInternal_congr {b : Byte} {s s' t : State} (h : pfeedInternal b s = .ok t) (hcfg : s'.cfg = s.cfg)
    (hidx : s'.preIdx = s.preIdx) (hfound : s'.preFound = s.preFound) :
    pfeedInternal b s' = .ok { s' with preIdx := t.preIdx, preFound := t.preFound } := by
  unfold pfeedInternal at h ⊢
  rw [hcfg, hidx, hfound]
  split at h
  · cases h
    rw [if_pos ‹_›, ← hcfg, ← hidx, ← hfound]
  · rw [if_neg ‹_›]
    split at h <;> [cases h; skip]
    split at h <;> cases h
    · rw [if_pos ‹_›]
    · rw [if_neg ‹_›, ← hfound]

theorem bitCnt_succ_toNat {n : BitVec 4} (h : n.toNat < 8) : (n + 1).toNat = n.toNat + 1 := by bv_omega

theorem preIdx_succ_toNat {n : BitVec 2} (h : n.toNat < 2) : (n + 1).toNat = n.toNat + 1 := by bv_omega

/-! ### The named updates -/

namespace Inv

variable {s : State}

/-- Only a run that shuts down has a fault recorded (60_exceptions.md R123). -/
theorem faultCode_eq_none (h : Inv s) (h1 : s.phase ≠ .shutdown) (h2 : s.phase ≠ .halted) : s.faultCode = .none := by
  by_contra hf
  exact (h.faulted hf).elim h1 h2

theorem withInputs (h : Inv s) (rest : List Input) : Inv (s.withInputs rest) := { h with }

theorem emit (h : Inv s) (e : Event) : Inv (s.emit e) := { h with }

/-- A phase change keeps the invariant when the new phase finds what it promises. -/
theorem goTo (h : Inv s) {p : Phase} (hfault : s.faultCode = .none ∨ p = .shutdown ∨ p = .halted)
    (hdecode : p = .decode → Memory.filled s.rxb s.cfg.rxBufLen) (hencode : p = .encode → 0 < s.txN)
    (hsubmit : p = .submitTx → s.txResult = .ok ∧ jobFits s.cfg s.txN = true) : Inv (s.goTo p) :=
  { h with
    rxbFilled := hdecode
    encodeJob := hencode
    submitJob := hsubmit
    faulted := fun hf => hfault.resolve_left hf
    midPhase := nofun }

/-- A change to a phase that promises nothing of its own. -/
theorem goTo_plain (h : Inv s) {p : Phase} (hfault : s.faultCode = .none ∨ p = .shutdown ∨ p = .halted)
    (hdecode : p ≠ .decode) (hencode : p ≠ .encode) (hsubmit : p ≠ .submitTx) : Inv (s.goTo p) :=
  h.goTo hfault (absurd · hdecode) (absurd · hencode) (absurd · hsubmit)

theorem midPhase_set (h : Inv s) (hp : s.phase = .decode ∨ s.phase = .hostRead ∨ s.phase = .encode) :
    Inv { s with midPhase := true } :=
  { h with midPhase := fun _ => hp }

theorem sidx_set (h : Inv s) {k : Nat} (hk : k ≤ s.cfg.rxBufLen) : Inv { s with sidx := k } := { h with sidx := hk }

theorem faultEntry (h : Inv s) (c : FaultCode) : Inv (faultEntry c s) := by
  rw [faultEntry_eq]
  by_cases hp : s.phase = .shutdown ∨ s.phase = .halted
  · simp only [if_pos hp]
    exact { h with faulted := fun _ => hp }
  · simp only [if_neg hp]
    exact { h with
      rxbFilled := nofun
      encodeJob := nofun
      submitJob := nofun
      faulted := fun _ => .inl rfl
      midPhase := nofun }

/-- An oversize job is not the one whose buffer `SUBMIT_TX` hands over. -/
theorem oversize (h : Inv s) (hj : jobFits s.cfg s.txN = false) : Inv { s with txResult := .size } :=
  { h with
    submitJob := fun hp => absurd (h.submitJob hp).2 (by simp [hj])
    txbFilled := nofun }

/-! ### The decoder -/

theorem ref_set (h : Inv s) (x : Sample) : Inv { s with ref := BitVec.ofInt 32 (half (amp s.cfg x)) } :=
  { h with ref := by rw [toInt_ofInt_half_amp h.cfgWf]; exact half_amp_bound h.cfgWf x }

theorem searchBit (h : Inv s) (hm : s.decMode = .searchingHeader) (b : Bool) : Inv (searchBit b s) := by
  unfold Machine.searchBit
  split
  · exact { h with
      bitCnt := Nat.zero_le _
      collecting := fun _ => ⟨Nat.zero_le _, rfl⟩ }
  · exact { h with collecting := fun hc => absurd (hm.symm.trans hc) (by simp) }

theorem pfeedInternal (h : Inv s) {b : Byte} {t : State} (ht : pfeedInternal b s = .ok t) : Inv t := by
  obtain ⟨-, rfl⟩ | ⟨hf, hb, rfl⟩ | ⟨hf, -, rfl⟩ := pfeedInternal_eq_ok ht
  · exact h
  · have hlt : s.preIdx.toNat < 2 := by simpa [Config.preRom] using (List.getElem?_eq_some_iff.1 hb).1
    have hnext := preIdx_succ_toNat hlt
    exact { h with preIdx := ⟨by rw [hnext]; exact hlt, by simp⟩ }
  · exact { h with preIdx := ⟨Nat.zero_le _, by simp [hf, Config.preLen]⟩ }

/-- A stored byte extends the filled part of `OUTB` by one (20_memory.md R52). -/
theorem outb_store (h : Inv s) (hlt : s.outCount < s.cfg.rxOutCap) (v : Byte) :
    Inv { s with outb := Memory.store s.outb s.outCount v, outCount := s.outCount + 1 } :=
  { h with
    outbForm := ⟨Memory.wf_store h.outbForm.1, Memory.within_store h.outbForm.2 hlt⟩
    outCount := ⟨hlt, fun k hk => by
      rw [Memory.load_store]
      split
      · rfl
      · exact h.outCount.2 k (by have : k < s.outCount + 1 := hk; omega)⟩ }

/-- A completed byte leaves a searching decoder, so only what holds of one is asked of the state it is completed in. -/
theorem completeByte (h : Inv { s with decMode := .searchingHeader }) {t : State} (ht : completeByte s = .done t) :
    Inv t := by
  obtain ⟨u, hu, rfl⟩ := completeByte_eq_done ht
  have hfed := pfeedInternal_congr (s' := { s with decMode := .searchingHeader }) hu rfl rfl rfl
  have hinv : Inv { u with decMode := .searchingHeader } := by
    rw [pfeedInternal_frame hu]
    exact h.pfeedInternal hfed
  split
  · exact hinv.outb_store ‹_› u.byteAcc
  · exact { hinv with }

theorem collectBit (h : Inv s) (hm : s.decMode = .collectingByte) {b : Bool} {t : State} (ht : collectBit b s = .done t) :
    Inv t := by
  have hcnt := (h.collecting hm).1
  have hnext := bitCnt_succ_toNat (n := s.bitCnt) (by omega)
  unfold Machine.collectBit at ht
  split at ht <;> [skip; cases ht]
  dsimp only at ht
  split at ht
  · refine completeByte (s := { s with byteAcc := _, bitCnt := _ }) ?_ ht
    exact { h with
      bitCnt := by rw [hnext]; omega
      collecting := nofun }
  · cases ht
    exact { h with
      bitCnt := by rw [hnext]; omega
      collecting := fun _ => ⟨Nat.le_of_not_lt ‹_›, (h.collecting hm).2⟩ }

theorem opRxsample (h : Inv s) {i q : BitVec 16} {t : State} (ht : opRxsample i q s = .done t) : Inv t := by
  cases hc : s.cycOpen with
  | false => rw [opRxsample_closed hc] at ht; cases ht
  | true =>
    cases hm : s.decMode with
    | searchingHeader =>
      rw [opRxsample_searching hc hm] at ht
      cases ht
      exact (h.ref_set _).searchBit hm _
    | collectingByte =>
      rw [opRxsample_collecting hc hm] at ht
      exact (h.ref_set _).collectBit hm ht

/-! ### The cycle's boundaries and the heartbeat -/

theorem opRxbegin (h : Inv s) {t : State} (ht : opRxbegin s = .done t) : Inv t := by
  unfold Machine.opRxbegin at ht
  split at ht <;> cases ht
  exact { h with
    outCount := ⟨Nat.zero_le _, fun _ hk => absurd hk (Nat.not_lt_zero _)⟩
    preIdx := ⟨Nat.zero_le _, by simp [Config.preLen]⟩ }

/-- A count that is no heartbeat stays below the limit: the exact one by `h`, a free one because a limit that the exact count
stays below lies above 32 bits (log entry 12). -/
theorem countIdle_lt (h : Inv s) (hn : (countIdle s).1 ≠ s.cfg.hbIdleLimit) :
    (BitVec.ofNat 32 (countIdle s).1).toNat < s.cfg.hbIdleLimit := by
  have hidle := h.idleCnt
  have hmod : (BitVec.ofNat 32 (countIdle s).1).toNat ≤ (countIdle s).1 := Nat.mod_le ..
  by_cases hexact : s.idleCnt.toNat + 1 = s.cfg.hbIdleLimit ∨ s.idleCnt.toNat + 1 < 2 ^ 32
  · rw [countIdle_exact hexact] at hn hmod ⊢
    dsimp only at hn hmod ⊢
    omega
  · have hlt := (BitVec.ofNat 32 (countIdle s).1).isLt
    omega

theorem heartbeat (h : Inv s) : Inv (heartbeat s) := by
  have hlimit : 0 < s.cfg.hbIdleLimit := Nat.zero_lt_of_lt h.idleCnt
  obtain ⟨k, hk⟩ := countIdle_frame s
  unfold Machine.heartbeat
  split <;> [skip; exact h]
  split <;> [skip; exact { h with idleCnt := hlimit }]
  dsimp only
  rw [hk]
  split
  · exact { h with idleCnt := hlimit }
  · exact { h with idleCnt := h.countIdle_lt ‹_› }

theorem opRxend (h : Inv s) {t : State} (ht : opRxend s = .done t) : Inv t := by
  obtain ⟨-, bytes, -, rfl⟩ := opRxend_eq_done ht
  exact { (h.emit _).heartbeat with }

/-! ### The other operations -/

/-- A job that fits writes every slot of `TXB` (44_tx_encoder.md R107). -/
theorem opTxjob (h : Inv s) {t : State} (ht : opTxjob s = .done t) : Inv t := by
  obtain ⟨-, ⟨hj, bytes, m, hb, hm, rfl⟩ | ⟨hj, -, rfl⟩⟩ := opTxjob_eq_done ht
  · have hlen : (frame s.cfg bytes).length = s.cfg.txBufLen := frame_length (by rwa [(memReadRange_eq_ok.1 hb).1])
    exact { h with
      txbForm := memWriteRange_form hm h.txbForm
      submitJob := fun _ => ⟨rfl, hj⟩
      txbFilled := fun _ => memWriteRange_filled hm hlen }
  · exact h.oversize hj

theorem opPfeed (h : Inv s) {b : Byte} {t : State} (ht : opPfeed b s = .done t) : Inv t :=
  h.pfeedInternal (opPfeed_eq_done ht).2

theorem op (h : Inv s) {op : State → OpResult} (hop : IsOp op) {t : State} (ht : op s = .done t) : Inv t := by
  rcases hop with rfl | ⟨i, q, rfl⟩ | rfl | rfl | ⟨b, rfl⟩ | rfl
  · exact h.opRxbegin ht
  · exact h.opRxsample ht
  · exact h.opRxend ht
  · exact h.opTxjob ht
  · exact h.opPfeed ht
  · cases ht
    exact { h with }

/-! ### The handovers -/

/-- The host's bytes become the job (45_orchestrator.md R115). ENCODE's promise is for the phase after it. -/
theorem job_set (h : Inv s) (hp : s.phase = .hostRead) {bytes : List Byte} {m : Memory Byte}
    (hl : bytes.length ≤ s.cfg.txMaxBytes) (hm : memWriteRange s.cfg.txMaxBytes s.jobb 0 bytes = .ok m) :
    Inv { s with txN := bytes.length, jobb := m } :=
  { h with
    jobbForm := memWriteRange_form hm h.jobbForm
    txN := ⟨hl, memWriteRange_filled hm rfl⟩
    encodeJob := fun he => absurd (hp.symm.trans he) (by simp)
    submitJob := fun he => absurd (hp.symm.trans he) (by simp) }

theorem rxb_set (h : Inv s) {xs : List Sample} {m : Memory Sample} (hl : xs.length = s.cfg.rxBufLen)
    (hm : memWriteRange s.cfg.rxBufLen s.rxb 0 xs = .ok m) : Inv { s with rxb := m } :=
  { h with
    rxbForm := memWriteRange_form hm h.rxbForm
    rxbFilled := fun _ => memWriteRange_filled hm hl }

theorem afterHostRead (h : Inv s) (hp : s.phase = .hostRead) : Inv (afterHostRead s) := by
  have hf : s.faultCode = .none := h.faultCode_eq_none (by simp [hp]) (by simp [hp])
  unfold Machine.afterHostRead
  split
  · exact h.goTo (.inl hf) nofun (fun _ => ‹_›) nofun
  · exact h.goTo_plain (.inl hf) nofun nofun nofun

/-- After TXJOB in `ENCODE` with `TX_RESULT = OK`, the job is one that fits (45_orchestrator.md R116). -/
theorem afterTxjob (h : Inv s) (hp : s.phase = .encode) {t : State} (ht : Machine.opTxjob s = .done t) :
    Inv (afterTxjob t) := by
  have hinv := h.opTxjob ht
  obtain ⟨⟨-, hphase, -⟩, ⟨hcode, -⟩, -⟩ := op_keeps isOp_txjob ht
  have hf : t.faultCode = .none := hcode ▸ h.faultCode_eq_none (by simp [hp]) (by simp [hp])
  unfold Machine.afterTxjob
  split
  · refine hinv.goTo (.inl hf) nofun nofun fun _ => ⟨‹_›, ?_⟩
    obtain ⟨-, ⟨hj, bytes, m, -, -, rfl⟩ | ⟨-, -, rfl⟩⟩ := opTxjob_eq_done ht
    · exact hj
    · cases ‹TxResult.size = TxResult.ok›
  · exact hinv.goTo_plain (.inl hf) nofun nofun nofun

end Inv

/-! ### Every step -/

/-- The invariant at reset, whatever the environment is about to send (10_state.md R41). -/
theorem inv_resetWith {c : Config} (hwf : c.wf = true) : Inv (State.resetWith c) := by
  have hlimit : 1 ≤ c.hbIdleLimit := by
    obtain ⟨-, -, -, -, -, -, -, -, -, -, -, -, hlimit⟩ := (config_wf_iff c).1 hwf
    exact hlimit
  constructor <;> simp [State.resetWith, CoreState.reset, Memory.wf, Memory.within, Memory.filled, Config.preLen, hwf]
  exact hlimit

theorem Inv.resetCore {s : State} (h : Inv s) : Inv (resetCore s) := by
  rw [resetCore_eq]
  exact { inv_resetWith h.cfgWf with }

theorem Inv.move {s t : State} (h : Inv s) (hm : Move s t) : Inv t := by
  have hf (h1 : s.phase ≠ .shutdown) (h2 : s.phase ≠ .halted) : s.faultCode = .none := h.faultCode_eq_none h1 h2
  cases hm with
  | stay => exact h
  | driven hop _ ht => exact h.op hop ht
  | faulted _ _ hu =>
    obtain rfl | ⟨hj, rfl⟩ := hu
    · exact h.faultEntry _
    · exact (h.oversize hj).faultEntry _
  | configured hp => exact h.goTo_plain (.inl (hf (by simp [hp]) (by simp [hp]))) nofun nofun nofun
  | received hp hl hw =>
    exact (h.rxb_set hl hw).goTo (.inl (hf (by simp [hp]) (by simp [hp]))) (fun _ => memWriteRange_filled hw hl) nofun nofun
  | hostAnswered hp hl hw => exact (h.job_set hp hl hw).afterHostRead hp
  | hostStopped hp hl hw => exact (h.job_set hp hl hw).midPhase_set (.inr (.inl hp))
  | slotAcquired hp => exact h.midPhase_set (.inr (.inr hp))
  | bufferSubmitted hp =>
    exact (h.emit _).goTo_plain (.inl (hf (by simp [hp]) (by simp [hp]))) nofun nofun nofun
  | released hp => exact (h.emit _).goTo_plain (.inr (.inr rfl)) nofun nofun nofun
  | passBegun hp ht =>
    obtain ⟨⟨-, hphase, -⟩, -⟩ := op_keeps isOp_rxbegin ht
    exact ((h.opRxbegin ht).sidx_set (Nat.zero_le _)).midPhase_set (.inl (hphase.trans hp))
  | sampleTaken hp _ hi ht =>
    obtain ⟨⟨hcfg, -, -, -, -, -, hsidx, -⟩, -⟩ := op_keeps (isOp_rxsample ..) ht
    exact (h.opRxsample ht).sidx_set (by rw [hcfg, hsidx]; exact hi)
  | passEnded hp => exact h.goTo_plain (.inl (hf (by simp [hp]) (by simp [hp]))) nofun nofun nofun
  | reported hp ht =>
    obtain ⟨-, ⟨hcode, -⟩, -⟩ := op_keeps isOp_rxend ht
    exact (h.opRxend ht).goTo_plain (.inl (hcode ▸ hf (by simp [hp]) (by simp [hp]))) nofun nofun nofun
  | stopIssued hp ht =>
    obtain ⟨⟨-, hphase, -⟩, -⟩ := op_keeps isOp_stopreq ht
    exact (h.op isOp_stopreq ht).afterHostRead (hphase.trans hp)
  | jobEncoded hp ht => exact h.afterTxjob hp ht
  | checked hp =>
    have hnone := hf (by simp [hp]) (by simp [hp])
    split
    · exact h.goTo_plain (.inl hnone) nofun nofun nofun
    · exact h.goTo_plain (.inl hnone) nofun nofun nofun

/-- Settles O51: RESET and every move keep the invariant. -/
theorem stepKeepsTheInvariant : Obligations.StepKeepsTheInvariant := by
  unfold Obligations.StepKeepsTheInvariant
  intro s t h ht
  obtain ⟨-, rest, -, ⟨-, rfl⟩ | hm⟩ := move_of_step ht
  · exact (h.withInputs rest).resetCore
  · exact (h.withInputs rest).move hm

/-- Settles O50: the reset state, with any inputs. -/
theorem invariantHoldsAtReset : Obligations.InvariantHoldsAtReset := by
  unfold Obligations.InvariantHoldsAtReset
  exact fun c ins hwf => (inv_resetWith hwf).withInputs ins

end Sys2Proof.Machine

/-! PROOFS. RXSAMPLE in full: a payload bit, the eighth bit, the frame, and that Q plays no part (42_decoder.md R83 to R88). -/

namespace Sys2Proof.Machine

/-! ### One bit in `COLLECTING_BYTE` (R86, R87) -/

theorem bitCnt_add_one {n : BitVec 4} : n + 1 = BitVec.ofNat 4 (n.toNat + 1) := by
  apply BitVec.eq_of_toNat_eq
  simp [BitVec.toNat_add]

theorem collectBit_short {b : Bool} {s : State} (h : s.bitCnt.toNat < 7) :
    collectBit b s = .done { s with byteAcc := shiftIn s.byteAcc b, bitCnt := s.bitCnt + 1 } := by
  have hnext := bitCnt_succ_toNat (n := s.bitCnt) (by omega)
  unfold collectBit
  rw [if_pos (by omega)]
  dsimp only
  rw [if_neg (by omega)]

theorem collectBit_last {b : Bool} {s : State} (h : s.bitCnt.toNat = 7) :
    collectBit b s = completeByte { s with byteAcc := shiftIn s.byteAcc b, bitCnt := 8 } := by
  have hnext : s.bitCnt + 1 = 8 := by rw [bitCnt_add_one, h]; rfl
  unfold collectBit
  rw [if_pos (by omega)]
  dsimp only
  rw [hnext, if_pos (by decide)]

/-- The decoder after its eighth bit, with the byte `v` stored or dropped, and `pi`, `pf` the matcher's registers. -/
def State.byteCompleted (s : State) (r : BitVec 32) (v : Byte) (pi : BitVec 2) (pf : Bool) : State :=
  { s with
    decMode := .searchingHeader, byteAcc := v, bitCnt := 8, ref := r, preIdx := pi, preFound := pf
    outb := if s.outCount < s.cfg.rxOutCap then Memory.store s.outb s.outCount v else s.outb
    outCount := if s.outCount < s.cfg.rxOutCap then s.outCount + 1 else s.outCount
    outOvf := if s.outCount < s.cfg.rxOutCap then s.outOvf else true }

/-- Where the matcher answers, the byte completes. -/
theorem completeByte_of_feed {s u : State} {r : BitVec 32} {v : Byte} (h : pfeedInternal v s = .ok u) :
    completeByte { s with ref := r, byteAcc := v, bitCnt := 8 } =
      .done (s.byteCompleted r v u.preIdx u.preFound) := by
  have hfed := pfeedInternal_congr (s' := { s with ref := r, byteAcc := v, bitCnt := 8 }) h rfl rfl rfl
  simp only [completeByte, hfed, storeByte_eq, State.byteCompleted]
  split <;> rfl

/-- In `COLLECTING_BYTE` a driven RXSAMPLE is the one bit, decided with `DEC_POL`, with half the amplitude in `REF`. -/
theorem exec_rxsample_collecting {i q : BitVec 16} {s t : State} (hp : s.phase ≠ .halted) (hc : s.cycOpen = true)
    (hm : s.decMode = .collectingByte)
    (h : collectBit (decideBit (amp s.cfg ⟨i, q⟩) s.ref.toInt s.decPol)
      { s with ref := BitVec.ofInt 32 (half (amp s.cfg ⟨i, q⟩)) } = .done t) :
    exec (.rxsample i q) s = .next t :=
  exec_rxsample_done hp ((opRxsample_collecting hc hm).trans h)

/-- Settles O16: below 7 bits the bit is shifted in and counted; the decision is the disjunction over the polarity. -/
theorem rxsampleCollectsAPayloadBit : Obligations.RxsampleCollectsAPayloadBit := by
  unfold Obligations.RxsampleCollectsAPayloadBit
  intro s i q hp hc hm hcnt a one next
  have hexec := exec_rxsample_collecting hp hc hm (i := i) (q := q) (collectBit_short hcnt)
  have hone : decideBit (amp s.cfg ⟨i, q⟩) s.ref.toInt s.decPol = true ↔ one := decideBit_iff ..
  rw [shiftIn_eq, bitCnt_add_one] at hexec
  refine ⟨fun h => ?_, fun h => ?_⟩
  · rw [if_pos (hone.2 h)] at hexec
    exact hexec
  · rw [if_neg (mt hone.1 h)] at hexec
    exact hexec

/-- The second byte's match is the one that sets `PRE_FOUND` (43_preamble.md R97). -/
theorem preIdx_next_eq_preLen (n : BitVec 2) : (n + 1).toNat = Config.preLen ↔ n = 1 := by
  unfold Config.preLen
  revert n
  decide

/-- The eighth bit, the completed byte `v` and what the matcher answers to it. -/
theorem exec_rxsample_eighth {i q : BitVec 16} {s u : State} {v : Byte} (hp : s.phase ≠ .halted) (hc : s.cycOpen = true)
    (hm : s.decMode = .collectingByte) (hcnt : s.bitCnt.toNat = 7)
    (hv : shiftIn s.byteAcc (decideBit (amp s.cfg ⟨i, q⟩) s.ref.toInt s.decPol) = v) (hu : pfeedInternal v s = .ok u) :
    exec (.rxsample i q) s =
      .next (s.byteCompleted (BitVec.ofInt 32 (half (amp s.cfg ⟨i, q⟩))) v u.preIdx u.preFound) := by
  subst hv
  have hdone := completeByte_of_feed (r := BitVec.ofInt 32 (half (amp s.cfg ⟨i, q⟩))) hu
  exact exec_rxsample_collecting hp hc hm ((collectBit_last (by exact hcnt)).trans hdone)

/-- Settles O17: the completed byte is fed, and each branch of the feed and of the store gives its clause. -/
theorem rxsampleCompletesAByte : Obligations.RxsampleCompletesAByte := by
  unfold Obligations.RxsampleCompletesAByte
  intro s i q hp hc hm hcnt hpre a one
  have hone : decideBit (amp s.cfg ⟨i, q⟩) s.ref.toInt s.decPol = true ↔ one := decideBit_iff ..
  obtain ⟨u, hu⟩ := pfeedInternal_answers (b := shiftIn s.byteAcc (decideBit (amp s.cfg ⟨i, q⟩) s.ref.toInt s.decPol)) hpre
  have hexec := exec_rxsample_eighth hp hc hm hcnt rfl hu
  generalize decideBit (amp s.cfg ⟨i, q⟩) s.ref.toInt s.decPol = b at hone hu hexec
  have hbyte : shiftIn s.byteAcc b = BitVec.ofNat 8 (2 * s.byteAcc.toNat + if b = true then 1 else 0) := shiftIn_eq ..
  have hfeed := pfeedInternal_eq_ok hu
  refine ⟨_, shiftIn s.byteAcc b, hexec, fun h => ?_, fun h => ?_, rfl, rfl, rfl, rfl, rfl, rfl, fun hf => ?_, fun hf hrom => ?_,
    fun hf hrom => ?_, fun hlt => ?_, fun hge => ?_⟩
  · rw [hbyte, if_pos (hone.2 h)]
  · rw [hbyte, if_neg (mt hone.1 h), Nat.add_zero]
  · obtain ⟨-, rfl⟩ | ⟨hf', -⟩ | ⟨hf', -⟩ := hfeed
    · exact ⟨hf, rfl⟩
    · exact absurd (hf.symm.trans hf') (by simp)
    · exact absurd (hf.symm.trans hf') (by simp)
  · obtain ⟨hf', -⟩ | ⟨-, -, rfl⟩ | ⟨-, hrom', -⟩ := hfeed
    · exact absurd (hf.symm.trans hf') (by simp)
    · exact ⟨rfl, decide_eq_true_iff.trans (preIdx_next_eq_preLen _)⟩
    · exact absurd hrom hrom'
  · obtain ⟨hf', -⟩ | ⟨-, hrom', -⟩ | ⟨-, -, rfl⟩ := hfeed
    · exact absurd (hf.symm.trans hf') (by simp)
    · exact absurd hrom' hrom
    · exact ⟨rfl, hf⟩
  · simp only [State.byteCompleted, if_pos hlt]
    exact ⟨trivial, Memory.load_store_same .., fun k hk => Memory.load_store_other _ _ _ hk, trivial⟩
  · simp only [State.byteCompleted, if_neg (Nat.not_lt.2 hge)]
    exact ⟨trivial, trivial, trivial⟩

/-! ### The frame, and the component that is not read -/

theorem opRxsample_done_open {i q : BitVec 16} {s t : State} (h : opRxsample i q s = .done t) : s.cycOpen = true := by
  by_contra hc
  rw [opRxsample_closed (by simpa using hc)] at h
  cases h

/-- What a completed RXSAMPLE may write, in either decoder state. -/
theorem opRxsample_frame {i q : BitVec 16} {s t : State} (h : opRxsample i q s = .done t) :
    ∃ m pol hdr acc n r pi pf oc ov ob,
      t = { s with
        decMode := m, decPol := pol, hdrReg := hdr, byteAcc := acc, bitCnt := n, ref := r, preIdx := pi, preFound := pf
        outCount := oc, outOvf := ov, outb := ob } ∧
      (∀ k, k ≠ s.outCount → Memory.load ob k = Memory.load s.outb k) ∧ (oc = s.outCount → ob = s.outb) ∧
      (s.decMode = .searchingHeader →
        acc = s.byteAcc ∧ pi = s.preIdx ∧ pf = s.preFound ∧ oc = s.outCount ∧ ov = s.outOvf) ∧
      (s.decMode = .collectingByte → hdr = s.hdrReg ∧ pol = s.decPol) := by
  have hc := opRxsample_done_open h
  cases hm : s.decMode with
  | searchingHeader =>
    rw [opRxsample_searching hc hm] at h
    obtain ⟨m, pol, hdr, n, he⟩ := searchBit_frame (decideBit (amp s.cfg ⟨i, q⟩) s.ref.toInt .normal)
      { s with ref := BitVec.ofInt 32 (half (amp s.cfg ⟨i, q⟩)) }
    rw [he] at h
    cases h
    exact ⟨_, _, _, _, _, _, _, _, _, _, _, rfl, by simp⟩
  | collectingByte =>
    rw [opRxsample_collecting hc hm] at h
    obtain ⟨m, acc, n, pi, pf, oc, ov, ob, rfl, hother, hsame⟩ := collectBit_frame h
    exact ⟨_, _, _, _, _, _, _, _, _, _, _, rfl, hother, hsame, by simp⟩

/-- Settles O18: ignored in `HALTED`, completed within the frame, or fault entry outside a cycle. -/
theorem rxsampleFrame : Obligations.RxsampleFrame := by
  unfold Obligations.RxsampleFrame
  intro s t i q h
  obtain ⟨-, rfl⟩ | ⟨-, hdone⟩ | ⟨-, c, u, hraised, rfl⟩ := perform_eq_next h
  · simp
  · have hc := opRxsample_done_open hdone
    obtain ⟨m, pol, hdr, acc, n, r, pi, pf, oc, ov, ob, rfl, hother, hsame, hsearch, hcollect⟩ := opRxsample_frame hdone
    refine ⟨by simp, by simp, hother, fun hoc k => by rw [hsame hoc], by simp, hsearch, hcollect, by simp [hc]⟩
  · obtain ⟨hc, rfl, rfl⟩ := opRxsample_eq_raised hraised
    simp [hc]

/-- Settles O19: the amplitude is that of I (41_symbol_codec.md R72), and nothing else of the sample is read. -/
theorem rxsampleIgnoresQ : Obligations.RxsampleIgnoresQ := by
  unfold Obligations.RxsampleIgnoresQ
  intro s i q q'
  have hamp : amp s.cfg ⟨i, q⟩ = amp s.cfg ⟨i, q'⟩ := rfl
  simp only [exec, execRxsample, perform, issue, opRxsample, hamp]

end Sys2Proof.Machine

/-! PROOFS. Where a step can stop or be refused: never on a fault of the model under the invariant, and else only for a broken
duty of the environment (20_memory.md R44, R52; 45_orchestrator.md R121). -/

namespace Sys2Proof.Machine

/-! ### No operation stops the model (20_memory.md R44, R52) -/

namespace Inv

variable {s : State} (h : Inv s)

include h

/-- Nothing is found before the index has passed the preamble's two bytes. -/
theorem preIdx_lt_of_not_found : s.preFound = true ∨ s.preIdx.toNat < 2 := by
  obtain ⟨hle, hfound⟩ := h.preIdx
  unfold Config.preLen at hle hfound
  by_cases hf : s.preFound = true
  · exact .inl hf
  · exact .inr (by have := mt hfound.2 hf; omega)

theorem opRxsample_ne_broken (i q : BitVec 16) (f : Fault) : Machine.opRxsample i q s ≠ .broken f := by
  cases hc : s.cycOpen with
  | false => rw [opRxsample_closed hc]; simp
  | true =>
    cases hm : s.decMode with
    | searchingHeader => rw [opRxsample_searching hc hm]; simp
    | collectingByte =>
      rw [opRxsample_collecting hc hm]
      obtain hlt | h7 := (h.collecting hm).1.lt_or_eq
      · rw [collectBit_short (by exact hlt)]
        simp
      · rw [collectBit_last (by exact h7)]
        obtain ⟨u, hu⟩ := pfeedInternal_answers (h.preIdx_lt_of_not_found)
        rw [completeByte_of_feed hu]
        simp

theorem opRxend_ne_broken (f : Fault) : Machine.opRxend s ≠ .broken f := by
  obtain ⟨bytes, hb⟩ := memReadRange_of_filled h.outCount.2 h.outCount.1
  unfold Machine.opRxend
  rw [hb]
  split <;> simp

theorem opTxjob_ne_broken (f : Fault) : Machine.opTxjob s ≠ .broken f := by
  obtain ⟨bytes, hb⟩ := memReadRange_of_filled h.txN.2 h.txN.1
  unfold Machine.opTxjob
  split <;> [simp; split]
  · have hlen : (frame s.cfg bytes).length = s.cfg.txBufLen := frame_length (by rwa [(memReadRange_eq_ok.1 hb).1])
    obtain ⟨m, hm, -⟩ := memWriteRange_ok (m := s.txb) (k := 0) (vs := frame s.cfg bytes) (cap := s.cfg.txBufLen) (by omega)
    simp [Machine.encodeJob, hb, hm]
  · unfold rejectJob
    split <;> simp

theorem opPfeed_ne_broken (b : Byte) (f : Fault) : Machine.opPfeed b s ≠ .broken f := by
  obtain ⟨u, hu⟩ := pfeedInternal_answers (b := b) (h.preIdx_lt_of_not_found)
  unfold Machine.opPfeed
  rw [hu]
  split <;> simp

theorem op_ne_broken {op : State → OpResult} (hop : IsOp op) (f : Fault) : op s ≠ .broken f := by
  rcases hop with rfl | ⟨i, q, rfl⟩ | rfl | rfl | ⟨b, rfl⟩ | rfl
  · unfold Machine.opRxbegin
    split <;> simp
  · exact h.opRxsample_ne_broken i q f
  · exact h.opRxend_ne_broken f
  · exact h.opTxjob_ne_broken f
  · exact h.opPfeed_ne_broken b f
  · simp [opStopreq]

/-! ### No step does -/

theorem issue_ne_fault {op : State → OpResult} (hop : IsOp op) (after : State → State) (f : Fault) :
    issue op after s ≠ .fault f :=
  mt issue_eq_fault.1 (h.op_ne_broken hop f)

theorem exec_ne_fault (i : Instr) (f : Fault) : exec i s ≠ .fault f := by
  have perform_ne {op : State → OpResult} (hop : IsOp op) : perform op s ≠ .fault f :=
    mt perform_eq_fault (h.op_ne_broken hop f)
  cases i with
  | reset => simp [exec, execReset]
  | rxbegin => exact perform_ne isOp_rxbegin
  | rxsample i q => exact perform_ne (isOp_rxsample i q)
  | rxend => exact perform_ne isOp_rxend
  | txjob => exact perform_ne isOp_txjob
  | pfeed b => exact perform_ne (isOp_pfeed b)
  | stopreq => exact perform_ne isOp_stopreq

theorem runWord_ne_fault (w : OpWord) (f : Fault) : runWord w s ≠ .fault f := by
  unfold runWord
  split
  · exact h.exec_ne_fault _ f
  · simp [illegalWord_eq]

omit h in
/-- The handovers write as many elements as their length checks allow. -/
theorem takeAnswer_ne_fault (r : Request) (a : Answer) (f : Fault) : takeAnswer r a s ≠ .fault f := by
  unfold takeAnswer
  split
  case h_2 xs =>
    unfold takeReceiveBuffer
    split <;> [skip; simp]
    obtain ⟨m, hm, -⟩ := memWriteRange_ok (m := s.rxb) (k := 0) (vs := xs) (cap := s.cfg.rxBufLen) (by omega)
    simp [hm]
  case h_4 bytes sd =>
    unfold takeHostAnswer State.job
    split <;> [skip; simp]
    obtain ⟨m, hm, -⟩ := memWriteRange_ok (m := s.jobb) (k := 0) (vs := bytes) (cap := s.cfg.txMaxBytes) (by omega)
    rw [hm]
    dsimp only
    split <;> simp
  all_goals simp

theorem decodeStep_ne_fault (hp : s.phase = .decode) (f : Fault) : decodeStep s ≠ .fault f := by
  unfold decodeStep
  split
  · split <;> [skip; simp]
    obtain ⟨x, hx, -⟩ := memRead_of_filled (h.rxbFilled hp) ‹_› le_rfl
    rw [hx]
    exact h.issue_ne_fault (isOp_rxsample ..) _ f
  · exact h.issue_ne_fault isOp_rxbegin _ f

theorem phaseAction_ne_fault (f : Fault) : phaseAction s ≠ .fault f := by
  unfold phaseAction
  split
  case h_3 hp => exact h.decodeStep_ne_fault hp f
  case h_4 => exact h.issue_ne_fault isOp_rxend _ f
  case h_5 =>
    split
    · exact h.issue_ne_fault isOp_stopreq _ f
    · simp
  case h_6 =>
    split
    · exact h.issue_ne_fault isOp_txjob _ f
    · simp
  all_goals simp

end Inv

theorem wait_ne_fault (r : Request) (s : State) (f : Fault) : wait r s ≠ .fault f := by
  unfold wait
  split <;> simp

/-- Settles O52: an operation word, an answer, a wait and a phase's action, each from a state that meets the invariant. -/
theorem invariantStatesNeverFault : Obligations.InvariantStatesNeverFault := by
  unfold Obligations.InvariantStatesNeverFault NoModelFault
  intro s h f
  have hdrop : Inv s.dropPass := by
    rw [State.dropPass_eq]
    exact h.withInputs _
  unfold step
  rw [if_pos h.cfgWf]
  split
  · exact (h.withInputs _).runWord_ne_fault _ f
  · unfold advance
    split
    · exact Inv.takeAnswer_ne_fault _ _ f
    · exact wait_ne_fault _ _ f
    · exact hdrop.phaseAction_ne_fault f

/-! ### Which steps are refused -/

theorem exec_ne_refused (i : Instr) (s : State) (r : Refusal) : exec i s ≠ .refused r := by
  cases i with
  | reset => simp [exec, execReset]
  | rxbegin | rxsample _ _ | rxend | txjob | pfeed _ | stopreq => exact perform_ne_refused

theorem runWord_ne_refused (w : OpWord) (s : State) (r : Refusal) : runWord w s ≠ .refused r := by
  unfold runWord
  split
  · exact exec_ne_refused _ s r
  · simp [illegalWord_eq]

theorem phaseAction_ne_refused (s : State) (r : Refusal) : phaseAction s ≠ .refused r := by
  unfold phaseAction decodeStep
  split
  case h_3 =>
    split
    · split <;> [skip; simp]
      split <;> [simp; exact issue_ne_refused]
    · exact issue_ne_refused
  case h_4 => exact issue_ne_refused
  case h_5 | h_6 =>
    split
    · exact issue_ne_refused
    · simp
  all_goals simp

theorem wait_eq_refused {q : Request} {s : State} {r : Refusal} :
    wait q s = .refused r ↔ r = .hostNotAtOnce ∧ q = .hostRead ∧ s.cfg.hostNonblock = true := by
  unfold wait
  split <;> simp [*, eq_comm (a := r)]

theorem takeReceiveBuffer_eq_refused {xs : List Sample} {s : State} {r : Refusal} :
    takeReceiveBuffer xs s = .refused r ↔ r = .shortReceiveBuffer ∧ xs.length ≠ s.cfg.rxBufLen := by
  unfold takeReceiveBuffer
  split
  · split <;> simp [*]
  · simp [*, eq_comm (a := r)]

theorem takeHostAnswer_eq_refused {bytes : List Byte} {sd : Bool} {s : State} {r : Refusal} :
    takeHostAnswer bytes sd s = .refused r ↔ r = .hostAnswerTooLong ∧ s.cfg.txMaxBytes < bytes.length := by
  unfold takeHostAnswer
  split
  · have : ¬ s.cfg.txMaxBytes < bytes.length := by omega
    split
    · simp [*]
    · split <;> simp [*]
  · have : s.cfg.txMaxBytes < bytes.length := by omega
    simp [*, eq_comm (a := r)]

/-- The answers that are a response to a request (45_orchestrator.md R110, R112, R115, R116, R119). -/
def Answer.responds : Request → Answer → Bool
  | .configure, .configure _ => true
  | .acquireReceive, .receiveBuffer _ => true
  | .acquireReceive, .receiveError => true
  | .hostRead, .host _ _ => true
  | .acquireTransmit, .transmitSlot _ => true
  | .submitTransmit, .submit _ => true
  | .shutdown, .shutdownDone => true
  | _, _ => false

/-- An answer is refused for its length, or because it responds to no request the core makes. -/
theorem takeAnswer_eq_refused {q : Request} {a : Answer} {s : State} {r : Refusal} :
    takeAnswer q a s = .refused r ↔
      (r = .shortReceiveBuffer ∧ q = .acquireReceive ∧ ∃ xs, a = .receiveBuffer xs ∧ xs.length ≠ s.cfg.rxBufLen) ∨
      (r = .hostAnswerTooLong ∧ q = .hostRead ∧ ∃ bs sd, a = .host bs sd ∧ s.cfg.txMaxBytes < bs.length) ∨
      (r = .unrequestedAnswer ∧ a.responds q = false) := by
  unfold takeAnswer
  split
  case h_2 xs => simp [takeReceiveBuffer_eq_refused, Answer.responds]
  case h_4 bytes sd => simp [takeHostAnswer_eq_refused, Answer.responds]
  case h_8 =>
    have hno : a.responds q = false := by
      unfold Answer.responds
      split <;> simp_all
    have hrx : ¬ (q = .acquireReceive ∧ ∃ xs, a = .receiveBuffer xs ∧ xs.length ≠ s.cfg.rxBufLen) := by
      rintro ⟨rfl, xs, rfl, -⟩
      simp [Answer.responds] at hno
    have hhost : ¬ (q = .hostRead ∧ ∃ bs sd, a = .host bs sd ∧ s.cfg.txMaxBytes < bs.length) := by
      rintro ⟨rfl, bs, sd, rfl, -⟩
      simp [Answer.responds] at hno
    simp only [hrx, hhost, hno, and_false, false_or, and_true, Host.Outcome.refused.injEq]
    exact eq_comm
  all_goals simp [Answer.responds]

/-- Under a well-formed configuration a step is refused for an answer to the request the core waits on, or for a host
that does not answer at once. -/
theorem step_eq_refused {s : State} {r : Refusal} (hwf : s.cfg.wf = true) : step s = .refused r ↔
    ∃ q, pendingRequest s = some q ∧
      ((∃ a rest, s.inputs = .answer a :: rest ∧ takeAnswer q a (s.withInputs rest) = .refused r) ∨
      ((s.inputs = [] ∨ ∃ rest, s.inputs = .pass :: rest) ∧ wait q s.dropPass = .refused r)) := by
  cases hin : s.inputs with
  | nil =>
    cases hq : pendingRequest s with
    | none => simp [step_quiet hwf hq (by simp [hin]), phaseAction_ne_refused]
    | some q => simp [step_wait hwf hq (by simp [hin]) (by simp [hin])]
  | cons x rest =>
    cases x with
    | op w => simp [step_op hwf hin, runWord_ne_refused]
    | answer a =>
      cases hq : pendingRequest s with
      | none => simp [step_quiet hwf hq (by simp [hin]), phaseAction_ne_refused]
      | some q => simp [step_answer hwf hq hin]
    | pass =>
      cases hq : pendingRequest s with
      | none => simp [step_quiet hwf hq (by simp [hin]), phaseAction_ne_refused]
      | some q => simp [step_wait hwf hq (by simp [hin]) (by simp [hin])]

/-- The six waits (45_orchestrator.md R110, 60_exceptions.md R137). -/
theorem pendingRequest_eq_some_iff {s : State} {q : Request} : pendingRequest s = some q ↔
    (s.phase = .boot ∧ q = .configure) ∨ (s.phase = .acqRx ∧ q = .acquireReceive) ∨
    (s.phase = .hostRead ∧ s.midPhase = false ∧ q = .hostRead) ∨
    (s.phase = .encode ∧ s.midPhase = false ∧ q = .acquireTransmit) ∨ (s.phase = .submitTx ∧ q = .submitTransmit) ∨
    (s.phase = .shutdown ∧ q = .shutdown) := by
  refine ⟨pendingRequest_eq_some, ?_⟩
  rintro (⟨hp, rfl⟩ | ⟨hp, rfl⟩ | ⟨hp, hm, rfl⟩ | ⟨hp, hm, rfl⟩ | ⟨hp, rfl⟩ | ⟨hp, rfl⟩) <;> simp [pendingRequest, *]

/-- The answers that respond to no request the core waits on, by the phase of the wait. -/
theorem unrequested_iff {s : State} {a : Answer} : (∃ q, pendingRequest s = some q ∧ a.responds q = false) ↔
    (s.phase = .boot ∧ ∀ ok, a ≠ .configure ok) ∨
    (s.phase = .acqRx ∧ (∀ xs, a ≠ .receiveBuffer xs) ∧ a ≠ .receiveError) ∨
    (s.phase = .hostRead ∧ s.midPhase = false ∧ ∀ bs sd, a ≠ .host bs sd) ∨
    (s.phase = .encode ∧ s.midPhase = false ∧ ∀ ok, a ≠ .transmitSlot ok) ∨
    (s.phase = .submitTx ∧ ∀ ok, a ≠ .submit ok) ∨
    (s.phase = .shutdown ∧ a ≠ .shutdownDone) := by
  simp only [pendingRequest_eq_some_iff, or_and_right, exists_or, and_assoc, exists_and_left, exists_eq_left]
  cases a <;> simp [Answer.responds]

/-- Settles O53: the refusals of a wait, of a handover's length and of an unrequested answer are the only ones. -/
theorem onlyBrokenDutiesAreRefused : Obligations.OnlyBrokenDutiesAreRefused := by
  unfold Obligations.OnlyBrokenDutiesAreRefused
  refine ⟨fun s hwf => by simp [step, hwf], fun s r h => ?_⟩
  simp only [step_eq_refused h.cfgWf, ← unrequested_iff]
  constructor
  · rintro ⟨q, hq, ⟨a, rest, hin, ha⟩ | ⟨hin, hw⟩⟩
    · obtain ⟨rfl, rfl, xs, rfl, hl⟩ | ⟨rfl, rfl, bs, sd, rfl, hl⟩ | ⟨rfl, hno⟩ := takeAnswer_eq_refused.1 ha
      · exact .inl ⟨rfl, by simpa using pendingRequest_eq_some hq, xs, rest, hin, hl⟩
      · obtain ⟨hp, hm⟩ : s.phase = .hostRead ∧ s.midPhase = false := by simpa using pendingRequest_eq_some hq
        exact .inr (.inl ⟨rfl, hp, hm, bs, sd, rest, hin, hl⟩)
      · exact .inr (.inr (.inr ⟨rfl, a, rest, hin, q, hq, hno⟩))
    · obtain ⟨rfl, rfl, hnb⟩ := wait_eq_refused.1 hw
      obtain ⟨hp, hm⟩ : s.phase = .hostRead ∧ s.midPhase = false := by simpa using pendingRequest_eq_some hq
      rw [State.dropPass_eq] at hnb
      exact .inr (.inr (.inl ⟨rfl, hp, hm, hnb, hin⟩))
  · rintro (⟨rfl, hp, xs, rest, hin, hl⟩ | ⟨rfl, hp, hm, bs, sd, rest, hin, hl⟩ | ⟨rfl, hp, hm, hnb, hin⟩ |
      ⟨rfl, a, rest, hin, q, hq, hno⟩)
    · exact ⟨_, pendingRequest_eq_some_iff.2 (.inr (.inl ⟨hp, rfl⟩)),
        .inl ⟨_, rest, hin, takeAnswer_eq_refused.2 (.inl ⟨rfl, rfl, xs, rfl, hl⟩)⟩⟩
    · exact ⟨_, pendingRequest_eq_some_iff.2 (.inr (.inr (.inl ⟨hp, hm, rfl⟩))),
        .inl ⟨_, rest, hin, takeAnswer_eq_refused.2 (.inr (.inl ⟨rfl, rfl, bs, sd, rfl, hl⟩))⟩⟩
    · refine ⟨_, pendingRequest_eq_some_iff.2 (.inr (.inr (.inl ⟨hp, hm, rfl⟩))), .inr ⟨hin, ?_⟩⟩
      rw [State.dropPass_eq]
      exact wait_eq_refused.2 ⟨rfl, rfl, hnb⟩
    · exact ⟨q, hq, .inl ⟨a, rest, hin, takeAnswer_eq_refused.2 (.inr (.inr ⟨rfl, hno⟩))⟩⟩

end Sys2Proof.Machine

/-! PROOFS. What no step but a RESET changes, and where the phase may go (10_state.md R36, 20_memory.md R54, 45_orchestrator.md R111,
R119, 60_exceptions.md R123, R128). -/

namespace Sys2Proof.Machine

/-! ### What a move keeps -/

@[simp] theorem afterHostRead_stopFlag (s : State) : (afterHostRead s).stopFlag = s.stopFlag := rfl
@[simp] theorem afterHostRead_faultCode (s : State) : (afterHostRead s).faultCode = s.faultCode := rfl
@[simp] theorem afterHostRead_faultPhase (s : State) : (afterHostRead s).faultPhase = s.faultPhase := rfl
@[simp] theorem afterHostRead_rxb (s : State) : (afterHostRead s).rxb = s.rxb := rfl
@[simp] theorem afterTxjob_stopFlag (s : State) : (afterTxjob s).stopFlag = s.stopFlag := rfl
@[simp] theorem afterTxjob_faultCode (s : State) : (afterTxjob s).faultCode = s.faultCode := rfl
@[simp] theorem afterTxjob_faultPhase (s : State) : (afterTxjob s).faultPhase = s.faultPhase := rfl
@[simp] theorem afterTxjob_rxb (s : State) : (afterTxjob s).rxb = s.rxb := rfl

/-- A step that drives no RESET is a move. -/
theorem move_of_step_no_reset {s t : State} (h : step s = .next t) (hr : ¬ Drives s .reset) :
    ∃ rest, Move (s.withInputs rest) t := by
  obtain ⟨-, rest, -, ⟨hd, -⟩ | hm⟩ := move_of_step h
  · exact absurd hd hr
  · exact ⟨rest, hm⟩

theorem op_keeps_phase {op : State → OpResult} (hop : IsOp op) {s t : State} (h : op s = .done t) : t.phase = s.phase := by
  obtain ⟨⟨-, hphase, -⟩, -⟩ := op_keeps hop h
  exact hphase

/-- A completed operation keeps the fault registers, a set `STOP_FLAG` and `RXB`. -/
theorem op_keeps_run {op : State → OpResult} (hop : IsOp op) {s t : State} (h : op s = .done t) :
    (s.faultCode ≠ .none → t.faultCode = s.faultCode ∧ t.faultPhase = s.faultPhase) ∧
    (s.stopFlag = true → t.stopFlag = true) ∧ (s.phase ≠ .acqRx → t.rxb = s.rxb) := by
  obtain ⟨⟨-, -, -, hrxb, -⟩, hfault, hstop⟩ := op_keeps hop h
  exact ⟨fun _ => hfault, hstop, fun _ => hrxb⟩

/-- So does every move, `ACQ_RX`'s handover apart: what follows an operation writes none of these. -/
theorem Move.keeps {s t : State} (h : Move s t) :
    (s.faultCode ≠ .none → t.faultCode = s.faultCode ∧ t.faultPhase = s.faultPhase) ∧
    (s.stopFlag = true → t.stopFlag = true) ∧ (s.phase ≠ .acqRx → t.rxb = s.rxb) := by
  cases h with
  | driven hop _ ht => exact op_keeps_run hop ht
  | faulted _ _ hu =>
    obtain rfl | ⟨-, rfl⟩ := hu <;> simp +contextual [faultEntry_faultCode, faultEntry_faultPhase]
  | passBegun _ ht => exact (op_keeps_run isOp_rxbegin ht :)
  | sampleTaken _ _ _ ht => exact (op_keeps_run (isOp_rxsample ..) ht :)
  | reported _ ht => exact (op_keeps_run isOp_rxend ht :)
  | stopIssued _ ht => exact (op_keeps_run isOp_stopreq ht :)
  | jobEncoded _ ht => exact (op_keeps_run isOp_txjob ht :)
  | received hp => simp [hp]
  | stay | configured | hostAnswered | hostStopped | slotAcquired | bufferSubmitted | released | passEnded | checked => simp

/-- Settles O8: only fault entry writes the two registers, and only when no fault is recorded. -/
theorem firstFaultIsKeptUntilReset : Obligations.FirstFaultIsKeptUntilReset := by
  unfold Obligations.FirstFaultIsKeptUntilReset
  intro s t h hf hr
  obtain ⟨rest, hm⟩ := move_of_step_no_reset h hr
  exact hm.keeps.1 hf

/-- Settles O37: no move clears the flag. -/
theorem stopFlagIsClearedOnlyByReset : Obligations.StopFlagIsClearedOnlyByReset := by
  unfold Obligations.StopFlagIsClearedOnlyByReset
  intro s t h hs hr
  obtain ⟨rest, hm⟩ := move_of_step_no_reset h hr
  exact hm.keeps.2.1 hs

/-- Settles O49: only the receive handover writes `RXB`. -/
theorem receiveBufferIsFixedBetweenHandovers : Obligations.ReceiveBufferIsFixedBetweenHandovers := by
  unfold Obligations.ReceiveBufferIsFixedBetweenHandovers
  intro s t h hp hr
  obtain ⟨rest, hm⟩ := move_of_step_no_reset h hr
  exact hm.keeps.2.2 hp

/-! ### Where the phase goes -/

/-- The edges of the phase machine's table (45_orchestrator.md R111), fault entry and RESET apart. -/
def phaseEdges : List (Phase × Phase) :=
  [(.boot, .acqRx), (.acqRx, .decode), (.decode, .report), (.report, .hostRead), (.hostRead, .encode),
    (.hostRead, .checkStop), (.encode, .submitTx), (.encode, .checkStop), (.submitTx, .checkStop),
    (.checkStop, .shutdown), (.checkStop, .acqRx), (.shutdown, .halted)]

/-- After the host's answer, and after a STOPREQ that follows it. -/
theorem afterHostRead_edge {s t : State} (hp : s.phase = .hostRead) :
    (s.phase, (afterHostRead t).phase) ∈ phaseEdges ∧
      ((afterHostRead t).phase = .shutdown → s.phase = .checkStop ∧ s.stopFlag = true) := by
  unfold afterHostRead
  split <;> simp [phaseEdges, hp]

theorem afterTxjob_edge {s t : State} (hp : s.phase = .encode) :
    (s.phase, (afterTxjob t).phase) ∈ phaseEdges ∧
      ((afterTxjob t).phase = .shutdown → s.phase = .checkStop ∧ s.stopFlag = true) := by
  unfold afterTxjob
  split <;> simp [phaseEdges, hp]

/-- A move stays in its phase, enters `SHUTDOWN` with a fault recorded, or follows an edge; and it follows the edge from
`CHECK_STOP` to `SHUTDOWN` only on a stop request. -/
theorem Move.phase_cases {s t : State} (h : Move s t) :
    t.phase = s.phase ∨ (t.phase = .shutdown ∧ t.faultCode ≠ .none) ∨
    ((s.phase, t.phase) ∈ phaseEdges ∧ (t.phase = .shutdown → s.phase = .checkStop ∧ s.stopFlag = true)) := by
  have edge {p : Phase} (q : Phase) (hp : s.phase = p) (ht : t.phase = q) (he : (p, q) ∈ phaseEdges) (hq : q ≠ .shutdown) :
      t.phase = s.phase ∨ (t.phase = .shutdown ∧ t.faultCode ≠ .none) ∨
      ((s.phase, t.phase) ∈ phaseEdges ∧ (t.phase = .shutdown → s.phase = .checkStop ∧ s.stopFlag = true)) :=
    .inr (.inr ⟨by rwa [hp, ht], fun hs => absurd (ht.symm.trans hs) hq⟩)
  cases h with
  | stay => exact .inl rfl
  | driven hop _ ht => exact .inl (op_keeps_phase hop ht)
  | @faulted c u hp hc hu =>
    have hphase : u.phase = s.phase := by obtain rfl | ⟨-, rfl⟩ := hu <;> rfl
    have hcode : (faultEntry c u).faultCode ≠ .none := by
      rw [faultEntry_faultCode]
      split <;> assumption
    by_cases hs : s.phase = .shutdown
    · exact .inl (by rw [faultEntry_phase, hphase, if_pos (.inl hs)])
    · exact .inr (.inl ⟨by rw [faultEntry_phase, hphase, if_neg (by simp [hs, hp])], hcode⟩)
  | configured hp => exact edge .acqRx hp rfl (by decide) (by decide)
  | received hp _ _ => exact edge .decode hp rfl (by decide) (by decide)
  | hostAnswered hp _ _ => exact .inr (.inr (afterHostRead_edge hp))
  | hostStopped => exact .inl rfl
  | slotAcquired => exact .inl rfl
  | bufferSubmitted hp => exact edge .checkStop hp rfl (by decide) (by decide)
  | released hp => exact edge .halted hp rfl (by decide) (by decide)
  | passBegun _ ht => exact .inl (op_keeps_phase isOp_rxbegin ht :)
  | sampleTaken _ _ _ ht => exact .inl (op_keeps_phase (isOp_rxsample ..) ht :)
  | passEnded hp => exact edge .report hp rfl (by decide) (by decide)
  | reported hp _ => exact edge .hostRead hp rfl (by decide) (by decide)
  | stopIssued hp _ => exact .inr (.inr (afterHostRead_edge hp))
  | jobEncoded hp _ => exact .inr (.inr (afterTxjob_edge hp))
  | checked hp =>
    right; right
    cases hs : s.stopFlag <;> simp [phaseEdges, hp]

/-- Settles O41: a move that leaves its phase enters the fault or follows an edge. -/
theorem phasesFollowTheTable : Obligations.PhasesFollowTheTable := by
  unfold Obligations.PhasesFollowTheTable
  intro s t h hne hr
  obtain ⟨rest, hm⟩ := move_of_step_no_reset h hr
  obtain heq | hfault | ⟨hedge, -⟩ := hm.phase_cases
  · exact absurd heq hne
  · exact .inl hfault
  · exact .inr hedge

/-- Settles O39: a RESET leads to `BOOT`, and a move to `SHUTDOWN` only as R119 says. -/
theorem shutdownIsEnteredFromCheckStopOrFault : Obligations.ShutdownIsEnteredFromCheckStopOrFault := by
  unfold Obligations.ShutdownIsEnteredFromCheckStopOrFault
  intro s t h hs ht
  obtain ⟨-, rest, -, ⟨-, rfl⟩ | hm⟩ := move_of_step h
  · cases ht
  · obtain heq | ⟨-, hcode⟩ | ⟨-, hstop⟩ := hm.phase_cases
    · exact absurd (heq.symm.trans ht) hs
    · exact .inr hcode
    · exact .inl (hstop ht)

end Sys2Proof.Machine

/-! PROOFS. Reset, fault entry and the operations' violations: the short statements (60_exceptions.md R123, R129,
70_reset_and_hazards.md R141). -/

namespace Sys2Proof.Machine

/-- Settles O4: the words by evaluation of the decoder. -/
theorem specWordsDecodeAsWritten : Obligations.SpecWordsDecodeAsWritten := by
  unfold Obligations.SpecWordsDecodeAsWritten
  decide

/-- Settles O6: `resetCore` writes none of these but `midPhase`. -/
theorem resetLeavesTheEnvironment : Obligations.ResetLeavesTheEnvironment := by
  unfold Obligations.ResetLeavesTheEnvironment
  intro s t h
  rw [exec_reset_next] at h
  cases h
  simp [resetCore_eq, State.resetWith, CoreState.reset]

/-- Fault entry and back: the fields it may write, put back, give the state it found. -/
theorem faultEntry_undo (c : FaultCode) (s : State) :
    { faultEntry c s with
      faultCode := s.faultCode, faultPhase := s.faultPhase, phase := s.phase, midPhase := s.midPhase } = s := by
  rw [faultEntry_eq]

/-- Settles O7: fault entry as one record update, by what is recorded and by the phase. -/
theorem faultEntrySavesCodeAndPhaseOnce : Obligations.FaultEntrySavesCodeAndPhaseOnce := by
  unfold Obligations.FaultEntrySavesCodeAndPhaseOnce
  intro c s
  refine ⟨fun h => ?_, fun h => ?_, fun h1 h2 => ?_, fun h => ?_, faultEntry_undo c s⟩
  · rw [faultEntry_faultCode, faultEntry_faultPhase, if_pos h, if_pos h]
    exact ⟨rfl, rfl⟩
  · rw [faultEntry_faultCode, faultEntry_faultPhase, if_neg h, if_neg h]
    exact ⟨rfl, rfl⟩
  · rw [faultEntry_phase, if_neg (not_or.2 ⟨h1, h2⟩)]
  · rw [faultEntry_phase, if_pos h]

/-- Settles O10: each operation raises `SEQ_ERR` on the state it finds. -/
theorem cycleViolationsRaiseSeqErr : Obligations.CycleViolationsRaiseSeqErr := by
  unfold Obligations.CycleViolationsRaiseSeqErr
  refine fun s hp => ⟨fun hc => ⟨?_, exec_rxbegin_open hp hc⟩, fun hc => ⟨fun i q => ?_, fun b => ?_, ?_⟩⟩
  · exact perform_raised hp (opTxjob_open hc)
  · exact perform_raised hp (opRxsample_closed hc)
  · exact perform_raised hp (opPfeed_closed hc)
  · exact perform_raised hp (opRxend_closed hc)

/-- Settles O36: the operation has one answer, and `HALTED` ignores it. -/
theorem stopreqOnlySetsTheFlag : Obligations.StopreqOnlySetsTheFlag := by
  unfold Obligations.StopreqOnlySetsTheFlag
  exact fun s => ⟨fun hp => perform_done hp rfl, fun hp => exec_halted hp (by simp)⟩

end Sys2Proof.Machine

/-! PROOFS. PFEED in a cycle and its frame (43_preamble.md R95 to R98). -/

namespace Sys2Proof.Machine

theorem pfeedInternal_found {b : Byte} {s : State} (hf : s.preFound = true) : pfeedInternal b s = .ok s := by
  simp [pfeedInternal, hf]

/-- Settles O23: one clause for each answer of the matcher. -/
theorem pfeedFeedsTheMatcher : Obligations.PfeedFeedsTheMatcher := by
  unfold Obligations.PfeedFeedsTheMatcher
  refine fun s b hp hc hpre => ⟨fun hf => exec_pfeed_open hp hc (pfeedInternal_found hf), fun hf hb => ?_, fun hf hb => ?_⟩
  · rw [exec_pfeed_open hp hc (pfeedInternal_match hf hb)]
    simp only [preIdx_next_eq_preLen]
  · obtain ⟨t, ht⟩ := pfeedInternal_answers (b := b) hpre
    obtain ⟨hf', -⟩ | ⟨-, hb', -⟩ | ⟨-, -, rfl⟩ := pfeedInternal_eq_ok ht
    · exact absurd (hf.symm.trans hf') (by simp)
    · exact absurd hb' hb
    · exact exec_pfeed_open hp hc ht

/-- Settles O27: ignored in `HALTED`, the matcher's two registers in a cycle, fault entry outside one. -/
theorem pfeedFrame : Obligations.PfeedFrame := by
  unfold Obligations.PfeedFrame
  intro s t b h
  obtain ⟨-, rfl⟩ | ⟨-, hdone⟩ | ⟨-, c, u, hraised, rfl⟩ := perform_eq_next h
  · exact ⟨fun _ => rfl, fun _ => rfl⟩
  · obtain ⟨hc, hfed⟩ := opPfeed_eq_done hdone
    refine ⟨fun _ => ?_, fun hc' => absurd (hc.symm.trans hc') (by simp)⟩
    rw [pfeedInternal_frame hfed]
  · obtain ⟨hc, rfl, rfl⟩ := opPfeed_eq_raised hraised
    exact ⟨fun hc' => absurd (hc.symm.trans hc') (by simp), fun _ => faultEntry_undo ..⟩

end Sys2Proof.Machine

/-! PROOFS. RXEND and the heartbeat counter, and what the cycle's boundaries keep (45_orchestrator.md R113, R114,
42_decoder.md R93). -/

namespace Sys2Proof.Machine

/-! ### The heartbeat counter, a case each (R113, R114) -/

theorem heartbeat_disabled {s : State} (h : s.cfg.hbEnable = false) : heartbeat s = s := by
  simp [heartbeat, h]

theorem heartbeat_busy {s : State} (h : s.cfg.hbEnable = true) (hidle : idleCycle s = false) :
    heartbeat s = { s with idleCnt := 0 } := by
  simp [heartbeat, h, hidle]

theorem heartbeat_limit {s : State} (h : s.cfg.hbEnable = true) (hidle : idleCycle s = true)
    (hn : (countIdle s).1 = s.cfg.hbIdleLimit) :
    heartbeat s = { (countIdle s).2.emit (.heartbeat s.cfg.hbRom) with idleCnt := 0 } := by
  simp [heartbeat, h, hidle, hn]

theorem heartbeat_count {s : State} (h : s.cfg.hbEnable = true) (hidle : idleCycle s = true)
    (hn : (countIdle s).1 ≠ s.cfg.hbIdleLimit) :
    heartbeat s = { (countIdle s).2 with idleCnt := BitVec.ofNat 32 (countIdle s).1 } := by
  simp [heartbeat, h, hidle, hn]

/-- Idle, by the rule of the configuration. -/
theorem idleCycle_iff (s : State) : idleCycle s = true ↔ (s.cfg.hbIdleRule = .decoded ∧ s.outCount = 0) ∨
    (s.cfg.hbIdleRule = .reported ∧ ¬ (s.preFound = true ∧ 0 < s.outCount)) := by
  unfold idleCycle
  cases s.cfg.hbIdleRule with
  | decoded => simp
  | reported => cases s.preFound <;> simp

theorem idleCycle_eq_false_iff (s : State) : idleCycle s = false ↔ ¬ ((s.cfg.hbIdleRule = .decoded ∧ s.outCount = 0) ∨
    (s.cfg.hbIdleRule = .reported ∧ ¬ (s.preFound = true ∧ 0 < s.outCount))) := by
  rw [← idleCycle_iff, Bool.not_eq_true]

/-! ### RXEND in a cycle -/

/-- What RXEND does after the report and the counter. -/
def State.closeCycle (s : State) : State := { s with cycOpen := false }

theorem exec_rxend_open {s : State} {bytes : List Byte} (hp : s.phase ≠ .halted) (hc : s.cycOpen = true)
    (hb : memReadRange s.cfg.rxOutCap s.outb 0 s.outCount = .ok bytes) :
    exec .rxend s = .next (heartbeat (s.emit (.report (reportOf s bytes)))).closeCycle :=
  perform_done hp (by simp [opRxend, hc, hb, State.closeCycle])

/-- The bytes of the report are those `OUTB` holds below `OUT_COUNT`. -/
theorem memReadRange_of_load {α : Type} {cap n : Nat} {m : Memory α} {vs : List α} (hn : n ≤ cap) (hl : vs.length = n)
    (h : ∀ k, k < n → Memory.load m k = vs[k]?) : memReadRange cap m 0 n = .ok vs :=
  memReadRange_eq_ok.2 ⟨hl, fun j hj => ⟨by omega, by simpa using h j hj⟩⟩

/-- Settles O28: the heartbeat counter's case for each clause, after the report. -/
theorem rxendReportsAndCloses : Obligations.RxendReportsAndCloses := by
  unfold Obligations.RxendReportsAndCloses
  intro s bytes hp hc hcap hlen hload report idle
  have hexec := exec_rxend_open hp hc (memReadRange_of_load hcap hlen hload)
  have hidle : idleCycle (s.emit report) = true ↔ idle := idleCycle_iff _
  have hbusy : idleCycle (s.emit report) = false ↔ ¬ idle := idleCycle_eq_false_iff _
  change exec .rxend s = .next (heartbeat (s.emit report)).closeCycle at hexec
  refine ⟨fun he => ?_, fun he hi => ?_, fun he hi hn => ?_, fun he hi hfit hn => ?_⟩
  · rw [hexec, heartbeat_disabled (by exact he)]
    rfl
  · rw [hexec, heartbeat_busy (by exact he) (hbusy.2 hi)]
    rfl
  · have hcount : countIdle (s.emit report) = (s.idleCnt.toNat + 1, s.emit report) := countIdle_exact (.inl hn)
    rw [hexec, heartbeat_limit (by exact he) (hidle.2 hi) (by rw [hcount]; exact hn), hcount]
    simp [State.emit, State.closeCycle, Config.hbRom]
  · have hcount : countIdle (s.emit report) = (s.idleCnt.toNat + 1, s.emit report) := countIdle_exact (.inr hfit)
    rw [hexec, heartbeat_count (by exact he) (hidle.2 hi) (by rw [hcount]; exact hn), hcount]
    rfl

/-- Settles O29: the count is the free value, unless it is the limit and the heartbeat clears it. -/
theorem rxendCompletesPastTheCounterWidth : Obligations.RxendCompletesPastTheCounterWidth := by
  unfold Obligations.RxendCompletesPastTheCounterWidth
  intro s bytes hp hc hcap hlen hload hi he hfull hlimit
  have hexec := exec_rxend_open hp hc (memReadRange_of_load hcap hlen hload)
  generalize hrep : s.emit (.report (reportOf s bytes)) = r at hexec
  have hidle : idleCycle r = true := by subst hrep; exact (idleCycle_iff _).2 hi
  have hcount : countIdle r = ((Config.freeIdleCount r.freeCtr).toNat, { r with freeCtr := r.freeCtr + 1 }) := by
    subst hrep
    exact countIdle_free (fun h => hlimit (h.symm.trans hfull)) (fun h => absurd hfull h.ne)
  by_cases hn : (Config.freeIdleCount r.freeCtr).toNat = r.cfg.hbIdleLimit
  · refine ⟨0, [.heartbeat s.cfg.hbBytes.toList], ?_, .inr ⟨rfl, rfl⟩⟩
    rw [hexec, heartbeat_limit (by subst hrep; exact he) hidle (by rw [hcount]; exact hn), hcount]
    subst hrep
    simp [State.emit, State.closeCycle, Config.hbRom, reportOf]
  · refine ⟨Config.freeIdleCount r.freeCtr, [], ?_, .inl ⟨rfl, by subst hrep; exact hn⟩⟩
    rw [hexec, heartbeat_count (by subst hrep; exact he) hidle (by rw [hcount]; exact hn), hcount]
    subst hrep
    simp [State.emit, State.closeCycle, reportOf]

/-! ### Empty cycles in a row (R114) -/

/-- The report of an empty cycle. -/
def emptyReport : Event := .report ⟨0, [], false, false, false⟩

/-- An empty cycle is idle under either rule: it counts, or it is the one that brings the heartbeat. -/
theorem execList_emptyCycle {s : State} (hp : s.phase ≠ .halted) (hc : s.cycOpen = false) (he : s.cfg.hbEnable = true) :
    (s.idleCnt.toNat + 1 = s.cfg.hbIdleLimit → execList [.rxbegin, .rxend] s = .next { s with
      preIdx := 0, preFound := false, outCount := 0, outOvf := false, idleCnt := 0
      events := s.events ++ [emptyReport, .heartbeat s.cfg.hbBytes.toList] }) ∧
    (s.idleCnt.toNat + 1 ≠ s.cfg.hbIdleLimit → s.idleCnt.toNat + 1 < 2 ^ 32 → execList [.rxbegin, .rxend] s = .next { s with
      preIdx := 0, preFound := false, outCount := 0, outOvf := false, idleCnt := BitVec.ofNat 32 (s.idleCnt.toNat + 1)
      events := s.events ++ [emptyReport] }) := by
  have hidle : (s.cfg.hbIdleRule = .decoded ∧ (0 : Nat) = 0) ∨
      (s.cfg.hbIdleRule = .reported ∧ ¬ (false = true ∧ (0 : Nat) < 0)) := by
    cases s.cfg.hbIdleRule <;> simp
  obtain ⟨-, -, hlimit, hcount⟩ := rxendReportsAndCloses
    { s with cycOpen := true, preIdx := 0, preFound := false, outCount := 0, outOvf := false } [] hp rfl (Nat.zero_le _) rfl nofun
  rw [execList_cons_next (exec_rxbegin_closed hp hc)]
  refine ⟨fun hn => ?_, fun hn hfit => ?_⟩
  · rw [execList_cons_next (hlimit he hidle hn), execList]
    simp [emptyReport, hc]
  · rw [execList_cons_next (hcount he hidle hfit hn), execList]
    simp [emptyReport, hc]

/-- The remaining cycles up to the limit, the last of them with the heartbeat. -/
theorem execList_emptyCycles {k : Nat} {s : State} (hp : s.phase ≠ .halted) (hc : s.cycOpen = false)
    (he : s.cfg.hbEnable = true) (hlimit : s.cfg.hbIdleLimit ≤ 2 ^ 32) (hk : s.idleCnt.toNat + (k + 1) = s.cfg.hbIdleLimit) :
    execList (List.replicate (k + 1) [Instr.rxbegin, .rxend]).flatten s = .next { s with
      preIdx := 0, preFound := false, outCount := 0, outOvf := false, idleCnt := 0
      events := s.events ++ List.replicate (k + 1) emptyReport ++ [.heartbeat s.cfg.hbBytes.toList] } := by
  induction k generalizing s with
  | zero =>
    rw [List.replicate_one, List.flatten_singleton, (execList_emptyCycle hp hc he).1 hk]
    simp
  | succ k ih =>
    have hfit : s.idleCnt.toNat + 1 < 2 ^ 32 := by omega
    have hcnt : (BitVec.ofNat 32 (s.idleCnt.toNat + 1)).toNat = s.idleCnt.toNat + 1 := by simp; omega
    have hfirst := (execList_emptyCycle hp hc he).2 (by omega) hfit
    rw [List.replicate_succ, List.flatten_cons, execList_append _ _ _ _ hfirst]
    refine (ih (by exact hp) (by exact hc) (by exact he) (by exact hlimit) (by simp only [hcnt]; omega)).trans ?_
    simp [List.replicate_succ]

/-- Settles O30: from `IDLE_CNT` 0 there are as many cycles to go as the limit says. -/
theorem heartbeatAfterTheLimitOfIdleCycles : Obligations.HeartbeatAfterTheLimitOfIdleCycles := by
  unfold Obligations.HeartbeatAfterTheLimitOfIdleCycles
  intro s hwf hp hc he hcnt hlimit
  obtain ⟨-, -, -, -, -, -, -, -, -, -, -, -, hpos⟩ := (config_wf_iff s.cfg).1 hwf
  obtain ⟨k, hk⟩ : ∃ k, s.cfg.hbIdleLimit = k + 1 := ⟨s.cfg.hbIdleLimit - 1, by omega⟩
  rw [hk]
  exact execList_emptyCycles hp hc he hlimit (by simp [hcnt, hk])

/-! ### What the boundaries keep (R93), and that they restart the matcher (43_preamble.md R100) -/

/-- A driven RXEND of a readable cycle closes it and writes only the heartbeat counter's fields and the events. -/
theorem exec_rxend_filled {s : State} (hp : s.phase ≠ .halted) (hc : s.cycOpen = true) (hcap : s.outCount ≤ s.cfg.rxOutCap)
    (hfill : Memory.filled s.outb s.outCount) : ∃ n ev k, exec .rxend s =
      .next { s with idleCnt := n, events := ev, freeCtr := k, cycOpen := false } := by
  obtain ⟨bytes, hb⟩ := memReadRange_of_filled hfill hcap
  obtain ⟨n, ev, k, he⟩ := heartbeat_frame (s.emit (.report (reportOf s bytes)))
  refine ⟨n, (s.emit (.report (reportOf s bytes))).events ++ ev, k, ?_⟩
  rw [exec_rxend_open hp hc hb, he]
  rfl

/-- Settles O26: ignored, completed, or fault entry; none of them writes a decoder register or a buffer. -/
theorem cycleBoundariesKeepTheDecoder : Obligations.CycleBoundariesKeepTheDecoder := by
  unfold Obligations.CycleBoundariesKeepTheDecoder
  rintro s t (h | h)
  · obtain ⟨-, rfl⟩ | ⟨-, hdone⟩ | ⟨-, c, u, hraised, rfl⟩ := perform_eq_next h
    · simp
    · unfold opRxbegin at hdone
      split at hdone <;> cases hdone
      simp
    · unfold opRxbegin at hraised
      split at hraised <;> cases hraised
      simp
  · obtain ⟨-, rfl⟩ | ⟨-, hdone⟩ | ⟨-, c, u, hraised, rfl⟩ := perform_eq_next h
    · simp
    · obtain ⟨-, bytes, -, rfl⟩ := opRxend_eq_done hdone
      obtain ⟨n, ev, k, he⟩ := heartbeat_frame (s.emit (.report (reportOf s bytes)))
      simp [he]
    · obtain ⟨-, rfl, rfl⟩ := opRxend_eq_raised hraised
      simp

/-- Settles O25: RXBEGIN puts the matcher at its start, from where one byte brings it to index 1 at most. -/
theorem preambleDoesNotCrossCycles : Obligations.PreambleDoesNotCrossCycles := by
  unfold Obligations.PreambleDoesNotCrossCycles
  intro s b hp hc hcap hfill
  obtain ⟨n, ev, k, hend⟩ := exec_rxend_filled hp hc hcap hfill
  rw [execList_cons_next hend, execList_cons_next (exec_rxbegin_closed (by exact hp) rfl)]
  obtain ⟨u, hu⟩ := pfeedInternal_answers (b := b) (s := { s with
    idleCnt := n, events := ev, freeCtr := k, cycOpen := true, preIdx := 0, preFound := false, outCount := 0, outOvf := false })
    (.inr (by simp))
  refine ⟨u, by rw [execList_cons_next (exec_pfeed_open (by exact hp) rfl hu), execList], ?_⟩
  obtain ⟨hf, -⟩ | ⟨-, -, rfl⟩ | ⟨-, -, rfl⟩ := pfeedInternal_eq_ok hu
  · cases hf
  · exact ⟨rfl, le_rfl⟩
  · exact ⟨rfl, Nat.zero_le _⟩

end Sys2Proof.Machine

/-! PROOFS. What no operation reads: a step in other surroundings is the same step (10_state.md R19, 45_orchestrator.md R118). -/

namespace Sys2Proof.Machine

/-- A change of the fields that no operation reads: what the orchestrator alone uses, the stop flag, the inputs, and the events
already emitted. -/
def IsAside (g : State → State) : Prop :=
  ∃ (mid : Bool → Bool) (idx : Nat → Nat) (stop : Bool → Bool) (ins : List Input → List Input) (earlier : List Event),
    stop true = true ∧ g = fun s => { s with
      midPhase := mid s.midPhase, sidx := idx s.sidx, stopFlag := stop s.stopFlag, inputs := ins s.inputs
      events := earlier ++ s.events }

/-- The answer of an operation, its state changed by `g`. -/
def OpResult.map (g : State → State) : OpResult → OpResult
  | .done s => .done (g s)
  | .raised c s => .raised c (g s)
  | .broken f => .broken f

/-- The outcome of a step, likewise. -/
def mapNext (g : State → State) : Host.Outcome State Fault Refusal → Host.Outcome State Fault Refusal
  | .next s => .next (g s)
  | .fault f => .fault f
  | .refused r => .refused r

section Aside

variable {g : State → State} (hg : IsAside g) (s : State)

include hg

theorem pfeedInternal_aside (b : Byte) : pfeedInternal b (g s) = (pfeedInternal b s).map g := by
  obtain ⟨mid, idx, stop, ins, earlier, -, rfl⟩ := hg
  unfold pfeedInternal
  dsimp only
  split
  · rfl
  · cases romRead s.cfg.preRom s.preIdx.toNat with
    | error f => rfl
    | ok p => dsimp only; split <;> rfl

theorem completeByte_aside : completeByte (g s) = (completeByte s).map g := by
  have hfeed := pfeedInternal_aside hg s s.byteAcc
  obtain ⟨mid, idx, stop, ins, earlier, -, rfl⟩ := hg
  unfold completeByte
  dsimp only at hfeed ⊢
  rw [hfeed]
  cases pfeedInternal s.byteAcc s with
  | error f => rfl
  | ok t =>
    simp only [Except.map, storeByte_eq]
    split <;> rfl

theorem collectBit_aside (b : Bool) : collectBit b (g s) = (collectBit b s).map g := by
  have hdone := completeByte_aside hg { s with byteAcc := shiftIn s.byteAcc b, bitCnt := s.bitCnt + 1 }
  obtain ⟨mid, idx, stop, ins, earlier, -, rfl⟩ := hg
  unfold collectBit
  dsimp only at hdone ⊢
  split
  · split
    · exact hdone
    · rfl
  · rfl

theorem searchBit_aside (b : Bool) : searchBit b (g s) = g (searchBit b s) := by
  obtain ⟨mid, idx, stop, ins, earlier, -, rfl⟩ := hg
  unfold searchBit
  dsimp only
  split <;> rfl

theorem opRxsample_aside (i q : BitVec 16) : opRxsample i q (g s) = (opRxsample i q s).map g := by
  have hsearch := searchBit_aside hg { s with ref := BitVec.ofInt 32 (half (amp s.cfg ⟨i, q⟩)) }
  have hcollect := collectBit_aside hg { s with ref := BitVec.ofInt 32 (half (amp s.cfg ⟨i, q⟩)) }
  obtain ⟨mid, idx, stop, ins, earlier, -, rfl⟩ := hg
  unfold opRxsample
  dsimp only at hsearch hcollect ⊢
  split
  · split
    · exact congrArg OpResult.done (hsearch _)
    · exact hcollect _
  · rfl

theorem emit_aside (e : Event) : (g s).emit e = g (s.emit e) := by
  obtain ⟨mid, idx, stop, ins, earlier, -, rfl⟩ := hg
  simp [State.emit]

theorem countIdle_aside : countIdle (g s) = ((countIdle s).1, g (countIdle s).2) := by
  obtain ⟨mid, idx, stop, ins, earlier, -, rfl⟩ := hg
  unfold countIdle
  dsimp only
  split <;> rfl

theorem cfg_aside : (g s).cfg = s.cfg := by
  obtain ⟨mid, idx, stop, ins, earlier, -, rfl⟩ := hg
  rfl

theorem idleCycle_aside : idleCycle (g s) = idleCycle s := by
  obtain ⟨mid, idx, stop, ins, earlier, -, rfl⟩ := hg
  rfl

theorem idleCnt_aside (n : BitVec 32) : { g s with idleCnt := n } = g { s with idleCnt := n } := by
  obtain ⟨mid, idx, stop, ins, earlier, -, rfl⟩ := hg
  rfl

theorem heartbeat_aside : heartbeat (g s) = g (heartbeat s) := by
  have hcfg := cfg_aside hg s
  have hidle := idleCycle_aside hg s
  have hcount := countIdle_aside hg s
  cases he : s.cfg.hbEnable with
  | false => rw [heartbeat_disabled he, heartbeat_disabled (by rw [hcfg, he])]
  | true =>
    cases hi : idleCycle s with
    | false => rw [heartbeat_busy he hi, heartbeat_busy (by rw [hcfg, he]) (by rw [hidle, hi]), idleCnt_aside hg]
    | true =>
      by_cases hn : (countIdle s).1 = s.cfg.hbIdleLimit
      · rw [heartbeat_limit he hi hn, heartbeat_limit (by rw [hcfg, he]) (by rw [hidle, hi]) (by rw [hcount, hcfg, hn]), hcount,
          hcfg, emit_aside hg, idleCnt_aside hg]
      · rw [heartbeat_count he hi hn, heartbeat_count (by rw [hcfg, he]) (by rw [hidle, hi]) (by rw [hcount, hcfg]; exact hn),
          hcount, idleCnt_aside hg]

theorem opRxend_aside : opRxend (g s) = (opRxend s).map g := by
  have hemit := emit_aside hg
  have hbeat := heartbeat_aside hg
  obtain ⟨mid, idx, stop, ins, earlier, -, rfl⟩ := hg
  unfold opRxend
  dsimp only at hemit hbeat ⊢
  split
  · cases memReadRange s.cfg.rxOutCap s.outb 0 s.outCount with
    | error f => rfl
    | ok bytes =>
      dsimp only
      rw [hemit, hbeat]
      rfl
  · rfl

theorem opTxjob_aside : opTxjob (g s) = (opTxjob s).map g := by
  obtain ⟨mid, idx, stop, ins, earlier, -, rfl⟩ := hg
  unfold opTxjob encodeJob rejectJob
  dsimp only
  split
  · rfl
  · split
    · cases memReadRange s.cfg.txMaxBytes s.jobb 0 s.txN with
      | error f => rfl
      | ok bytes =>
        dsimp only
        cases memWriteRange s.cfg.txBufLen s.txb 0 (frame s.cfg bytes) <;> rfl
    · cases s.cfg.txSizePolicy <;> rfl

theorem opPfeed_aside (b : Byte) : opPfeed b (g s) = (opPfeed b s).map g := by
  have hfeed := pfeedInternal_aside hg s b
  obtain ⟨mid, idx, stop, ins, earlier, -, rfl⟩ := hg
  unfold opPfeed
  dsimp only at hfeed ⊢
  rw [hfeed]
  split
  · cases pfeedInternal b s <;> rfl
  · rfl

theorem op_aside {op : State → OpResult} (hop : IsOp op) : op (g s) = (op s).map g := by
  rcases hop with rfl | ⟨i, q, rfl⟩ | rfl | rfl | ⟨b, rfl⟩ | rfl
  · obtain ⟨mid, idx, stop, ins, earlier, -, rfl⟩ := hg
    unfold opRxbegin
    dsimp only
    split <;> rfl
  · exact opRxsample_aside hg s i q
  · exact opRxend_aside hg s
  · exact opTxjob_aside hg s
  · exact opPfeed_aside hg s b
  · obtain ⟨mid, idx, stop, ins, earlier, hstop, rfl⟩ := hg
    simp [opStopreq, OpResult.map, hstop]

end Aside

/-! ### A step beside other inputs, events and stop requests -/

/-- The state with a stop request pending or not, `later` inputs after its own and `earlier` events before its own. -/
def State.amid (stop : Bool) (later : List Input) (earlier : List Event) (s : State) : State :=
  { s with stopFlag := s.stopFlag || stop, inputs := s.inputs ++ later, events := earlier ++ s.events }

section Amid

variable (stop : Bool) (later : List Input) (earlier : List Event) (s : State)

@[simp] theorem amid_cfg : (s.amid stop later earlier).cfg = s.cfg := rfl
@[simp] theorem amid_phase : (s.amid stop later earlier).phase = s.phase := rfl
@[simp] theorem amid_midPhase : (s.amid stop later earlier).midPhase = s.midPhase := rfl
@[simp] theorem amid_sidx : (s.amid stop later earlier).sidx = s.sidx := rfl
@[simp] theorem amid_rxb : (s.amid stop later earlier).rxb = s.rxb := rfl
@[simp] theorem amid_jobb : (s.amid stop later earlier).jobb = s.jobb := rfl
@[simp] theorem amid_inputs : (s.amid stop later earlier).inputs = s.inputs ++ later := rfl

theorem isAside_amid : IsAside (State.amid stop later earlier) :=
  ⟨id, id, (· || stop), (· ++ later), earlier, rfl, rfl⟩

theorem amid_withInputs (rest : List Input) :
    (s.amid stop later earlier).withInputs (rest ++ later) = (s.withInputs rest).amid stop later earlier := rfl

theorem amid_goTo (p : Phase) : (s.amid stop later earlier).goTo p = (s.goTo p).amid stop later earlier := rfl

theorem faultEntry_amid (c : FaultCode) :
    faultEntry c (s.amid stop later earlier) = (faultEntry c s).amid stop later earlier := by
  simp [faultEntry_eq, State.amid]

theorem issue_amid {op : State → OpResult} (hop : IsOp op) {after : State → State}
    (hafter : ∀ t, after (t.amid stop later earlier) = (after t).amid stop later earlier) :
    issue op after (s.amid stop later earlier) = mapNext (State.amid stop later earlier) (issue op after s) := by
  unfold issue
  rw [op_aside (isAside_amid ..) s hop]
  cases op s with
  | done t => exact congrArg Host.Outcome.next (hafter t)
  | raised c t => exact congrArg Host.Outcome.next (faultEntry_amid stop later earlier t c)
  | broken f => rfl

theorem perform_amid {op : State → OpResult} (hop : IsOp op) :
    perform op (s.amid stop later earlier) = mapNext (State.amid stop later earlier) (perform op s) := by
  unfold perform
  rw [amid_phase]
  by_cases hp : s.phase = .halted
  · rw [if_pos hp, if_pos hp]
    rfl
  · rw [if_neg hp, if_neg hp]
    exact issue_amid stop later earlier s hop fun _ => rfl

/-- RESET clears the flag, so it commutes with a change of the surroundings that raises none. -/
theorem exec_amid (i : Instr) (hstop : stop = false ∨ i ≠ .reset) :
    exec i (s.amid stop later earlier) = mapNext (State.amid stop later earlier) (exec i s) := by
  cases i with
  | reset =>
    obtain rfl | h := hstop
    · rfl
    · exact absurd rfl h
  | rxbegin => exact perform_amid stop later earlier s isOp_rxbegin
  | rxsample i q => exact perform_amid stop later earlier s (isOp_rxsample i q)
  | rxend => exact perform_amid stop later earlier s isOp_rxend
  | txjob => exact perform_amid stop later earlier s isOp_txjob
  | pfeed b => exact perform_amid stop later earlier s (isOp_pfeed b)
  | stopreq => exact perform_amid stop later earlier s isOp_stopreq

theorem illegalWord_amid :
    illegalWord (s.amid stop later earlier) = mapNext (State.amid stop later earlier) (illegalWord s) := by
  rw [illegalWord_eq, illegalWord_eq, amid_phase]
  split
  · rfl
  · exact congrArg Host.Outcome.next (faultEntry_amid stop later earlier s .badOp)

theorem runWord_amid (w : OpWord) (hstop : stop = false ∨ decode w ≠ .ok .reset) :
    runWord w (s.amid stop later earlier) = mapNext (State.amid stop later earlier) (runWord w s) := by
  unfold runWord
  cases hw : decode w with
  | ok i => exact exec_amid stop later earlier s i (hstop.imp_right fun h hi => h (by rw [hw, hi]))
  | error e => exact illegalWord_amid ..

theorem takeReceiveBuffer_amid (xs : List Sample) : takeReceiveBuffer xs (s.amid stop later earlier) =
    mapNext (State.amid stop later earlier) (takeReceiveBuffer xs s) := by
  unfold takeReceiveBuffer
  rw [amid_cfg, amid_rxb]
  split
  · cases memWriteRange s.cfg.rxBufLen s.rxb 0 xs <;> rfl
  · rfl

theorem takeHostAnswer_amid (bytes : List Byte) (sd : Bool) : takeHostAnswer bytes sd (s.amid stop later earlier) =
    mapNext (State.amid stop later earlier) (takeHostAnswer bytes sd s) := by
  unfold takeHostAnswer State.job
  rw [amid_cfg, amid_jobb]
  split
  · cases memWriteRange s.cfg.txMaxBytes s.jobb 0 bytes <;> cases sd <;> rfl
  · rfl

theorem takeAnswer_amid (r : Request) (a : Answer) :
    takeAnswer r a (s.amid stop later earlier) = mapNext (State.amid stop later earlier) (takeAnswer r a s) := by
  have hfault (c : FaultCode) : (.next (faultEntry c (s.amid stop later earlier)) : Host.Outcome State Fault Refusal) =
      .next ((faultEntry c s).amid stop later earlier) := by rw [faultEntry_amid]
  have hemit (e : Event) (p : Phase) : (.next (((s.amid stop later earlier).emit e).goTo p) : Host.Outcome State Fault Refusal) =
      .next (((s.emit e).goTo p).amid stop later earlier) := by rw [emit_aside (isAside_amid ..), amid_goTo]
  unfold takeAnswer
  split
  case h_1 ok =>
    cases ok
    · exact hfault _
    · rfl
  case h_2 xs => exact takeReceiveBuffer_amid ..
  case h_3 => exact hfault _
  case h_4 bytes sd => exact takeHostAnswer_amid ..
  case h_5 ok =>
    cases ok
    · exact hfault _
    · rfl
  case h_6 ok =>
    cases ok
    · exact hfault _
    · exact hemit (.submitted s.txb) .checkStop
  case h_7 => exact hemit .released .halted
  case h_8 => rfl

theorem decodeStep_amid :
    decodeStep (s.amid stop later earlier) = mapNext (State.amid stop later earlier) (decodeStep s) := by
  unfold decodeStep
  rw [amid_midPhase, amid_sidx, amid_cfg, amid_rxb]
  split
  · split
    · cases memRead s.cfg.rxBufLen s.rxb s.sidx with
      | error f => rfl
      | ok x => exact issue_amid stop later earlier s (isOp_rxsample ..) fun _ => rfl
    · rfl
  · exact issue_amid stop later earlier s isOp_rxbegin fun _ => rfl

/-- Only `CHECK_STOP` reads the flag (45_orchestrator.md R118). -/
theorem phaseAction_amid (hstop : stop = false ∨ s.phase ≠ .checkStop) :
    phaseAction (s.amid stop later earlier) = mapNext (State.amid stop later earlier) (phaseAction s) := by
  unfold phaseAction
  rw [amid_phase, amid_midPhase]
  split
  case h_3 => exact decodeStep_amid ..
  case h_4 => exact issue_amid stop later earlier s isOp_rxend fun _ => rfl
  case h_5 =>
    split
    · exact issue_amid stop later earlier s isOp_stopreq fun _ => rfl
    · rfl
  case h_6 =>
    split
    · exact issue_amid stop later earlier s isOp_txjob fun _ => rfl
    · rfl
  case h_8 hp =>
    obtain rfl | h := hstop
    · simp [State.amid, mapNext, State.goTo]
    · exact absurd hp h
  all_goals rfl

theorem pendingRequest_amid : pendingRequest (s.amid stop later earlier) = pendingRequest s := rfl

theorem dropPass_amid (hin : s.inputs ≠ [] ∨ later = []) :
    (s.amid stop later earlier).dropPass = s.dropPass.amid stop later earlier := by
  unfold State.dropPass
  rw [amid_inputs]
  cases hs : s.inputs with
  | nil =>
    obtain h | rfl := hin
    · exact absurd hs h
    · rfl
  | cons x rest => cases x <;> rfl

theorem wait_amid (r : Request) : wait r (s.amid stop later earlier) = mapNext (State.amid stop later earlier) (wait r s) := by
  unfold wait
  rw [amid_cfg]
  split <;> rfl

theorem advance_amid (hin : s.inputs ≠ [] ∨ later = []) (hstop : stop = false ∨ s.phase ≠ .checkStop) :
    advance (s.amid stop later earlier) = mapNext (State.amid stop later earlier) (advance s) := by
  have hdrop := dropPass_amid stop later earlier s hin
  have hphase : s.dropPass.phase = s.phase := by rw [State.dropPass_eq, State.withInputs_phase]
  unfold advance
  rw [pendingRequest_amid, hdrop]
  cases hq : pendingRequest s with
  | none =>
    have hact := phaseAction_amid stop later earlier s.dropPass (hphase ▸ hstop)
    rw [amid_inputs]
    cases s.inputs ++ later <;> cases s.inputs <;> exact hact
  | some r =>
    rw [amid_inputs]
    cases hs : s.inputs with
    | nil =>
      obtain h | rfl := hin
      · exact absurd hs h
      · exact wait_amid ..
    | cons x rest =>
      cases x with
      | answer a => exact takeAnswer_amid stop later earlier (s.withInputs rest) r a
      | op | pass => exact wait_amid ..

/-- A step beside other inputs, events and stop requests is the same step, RESET and `CHECK_STOP` apart for the flag. -/
theorem step_amid (hin : s.inputs ≠ [] ∨ later = []) (hstop : stop = false ∨ (s.phase ≠ .checkStop ∧ ¬ Drives s .reset)) :
    step (s.amid stop later earlier) = mapNext (State.amid stop later earlier) (step s) := by
  have hadvance := advance_amid stop later earlier s hin (hstop.imp_right And.left)
  unfold step
  rw [amid_cfg, amid_inputs]
  split <;> [skip; rfl]
  cases hs : s.inputs with
  | nil =>
    obtain h | rfl := hin
    · exact absurd hs h
    · exact hadvance
  | cons x rest =>
    cases x with
    | op w =>
      refine runWord_amid stop later earlier (s.withInputs rest) w (hstop.imp_right fun h hw => h.2 ⟨w, rest, hs, hw⟩)
    | answer | pass => exact hadvance

end Amid

/-! ### The stop request -/

/-- Settles O38: a pending stop request is a part of the surroundings. -/
theorem stopRequestWaitsForCheckStop : Obligations.StopRequestWaitsForCheckStop := by
  unfold Obligations.StopRequestWaitsForCheckStop
  intro s t hp hr h
  have hset (u : State) : u.amid true [] [] = { u with stopFlag := true } := by simp [State.amid]
  have hstep := step_amid true [] [] { s with stopFlag := false } (.inr rfl) (.inr ⟨hp, hr⟩)
  rw [h, hset] at hstep
  rw [← hset t]
  exact hstep

/-! ### The step's arguments (10_state.md R19) -/

/-- A move leaves the configuration, and the inputs beyond the one its step has taken. -/
theorem Move.keeps_cfg_and_inputs {s t : State} (h : Move s t) : t.cfg = s.cfg ∧ t.inputs = s.inputs := by
  have op_keeps_both {op : State → OpResult} (hop : IsOp op) {u : State} (hu : op s = .done u) :
      u.cfg = s.cfg ∧ u.inputs = s.inputs := by
    obtain ⟨⟨hcfg, -, -, -, -, -, -, hins⟩, -⟩ := op_keeps hop hu
    exact ⟨hcfg, hins⟩
  cases h with
  | driven hop _ ht => exact op_keeps_both hop ht
  | faulted _ _ hu => obtain rfl | ⟨-, rfl⟩ := hu <;> simp
  | passBegun _ ht => exact (op_keeps_both isOp_rxbegin ht :)
  | sampleTaken _ _ _ ht => exact (op_keeps_both (isOp_rxsample ..) ht :)
  | reported _ ht => exact (op_keeps_both isOp_rxend ht :)
  | stopIssued _ ht => exact (op_keeps_both isOp_stopreq ht :)
  | jobEncoded _ ht => exact (op_keeps_both isOp_txjob ht :)
  | stay | configured | received | hostAnswered | hostStopped | slotAcquired | bufferSubmitted | released | passEnded
  | checked =>
    exact ⟨rfl, rfl⟩

/-- A step leaves the configuration, and of one input it takes it or leaves it. -/
theorem step_keeps_cfg_and_inputs {s t : State} {x : Input} (hx : s.inputs = [x]) (h : step s = .next t) :
    t.cfg = s.cfg ∧ (t.inputs = [] ∨ t.inputs = [x]) := by
  obtain ⟨-, rest, hrest, hmove⟩ := move_of_step h
  have hkeeps : t.cfg = s.cfg ∧ t.inputs = rest := by
    obtain ⟨-, rfl⟩ | hm := hmove
    · exact ⟨rfl, rfl⟩
    · exact hm.keeps_cfg_and_inputs
  refine ⟨hkeeps.1, ?_⟩
  rw [hkeeps.2]
  obtain rfl | ⟨y, hy⟩ := hrest
  · exact .inr hx
  · rw [hx] at hy
    cases hy
    exact .inl rfl

/-- A `pass` is as no input: both leave none. -/
theorem step_pass_eq_step_nil (s : State) : step (s.withInputs [.pass]) = step (s.withInputs []) := by
  have hdrop : (s.withInputs [.pass]).dropPass = (s.withInputs []).dropPass := rfl
  have hreq : pendingRequest (s.withInputs [.pass]) = pendingRequest (s.withInputs []) := rfl
  by_cases hwf : s.cfg.wf = true
  · cases hq : pendingRequest (s.withInputs []) with
    | none => rw [step_quiet (by exact hwf) (hreq.trans hq) (by simp), step_quiet (by exact hwf) hq (by simp), hdrop]
    | some r =>
      rw [step_wait (by exact hwf) (hreq.trans hq) (by simp) (by simp), step_wait (by exact hwf) hq (by simp) (by simp), hdrop]
  · simp [step, hwf]

/-- The machine as `stepOn` sets it up: one input, and no event yet. -/
def State.alone (s : State) (x : Input) : State :=
  { toCoreState := s.toCoreState, cfg := s.cfg, inputs := [x], events := [] }

/-- The later inputs and the earlier events are surroundings of the step. -/
theorem step_eq_step_alone {s : State} {x : Input} {rest : List Input}
    (hin : s.inputs = x :: rest ∨ (s.inputs = [] ∧ x = .pass ∧ rest = [])) :
    step s = mapNext (State.amid false rest s.events) (step (s.alone x)) := by
  have hamid : (s.alone x).amid false rest s.events = s.withInputs (x :: rest) := by
    simp [State.amid, State.alone, State.withInputs]
  rw [← step_amid _ _ _ _ (.inl (by simp [State.alone])) (.inl rfl), hamid]
  obtain hin | ⟨hin, rfl, rfl⟩ := hin
  · rw [← hin]
    rfl
  · rw [step_pass_eq_step_nil, ← hin]
    rfl

/-- The turn that an outcome of the machine alone is (10_state.md R19). -/
def turnOf : Host.Outcome State Fault Refusal → Host.Outcome Turn Fault Refusal
  | .next t => .next { core := t.toCoreState, taken := t.inputs.isEmpty, emitted := t.events }
  | .fault f => .fault f
  | .refused r => .refused r

theorem stepOn_eq (s : State) (x : Input) : stepOn s.cfg x s.toCoreState = turnOf (step (s.alone x)) := by
  unfold stepOn State.alone
  generalize step _ = o
  cases o <;> rfl

/-- What the machine alone leaves, put back among the later inputs and after the earlier events. -/
theorem amid_of_alone {s t : State} {x : Input} {rest : List Input} (h : step (s.alone x) = .next t) :
    t.amid false rest s.events =
      { toCoreState := t.toCoreState, cfg := s.cfg, inputs := if t.inputs.isEmpty = true then rest else x :: rest
        events := s.events ++ t.events } := by
  obtain ⟨hcfg, hins⟩ := step_keeps_cfg_and_inputs rfl h
  rw [← show t.cfg = s.cfg from hcfg]
  obtain hins | hins := hins <;> simp [State.amid, hins]

/-- Settles O55: the machine's step is the step alone, amid its surroundings. -/
theorem stepIsAFunctionOfItsArguments : Obligations.StepIsAFunctionOfItsArguments := by
  unfold Obligations.StepIsAFunctionOfItsArguments
  intro s x rest hin
  have hstep := step_eq_step_alone hin
  have hon := stepOn_eq s x
  have hamid (t : State) (h : step (s.alone x) = .next t) := amid_of_alone (rest := rest) h
  generalize step (s.alone x) = o at hstep hon hamid
  rw [hon, hstep]
  cases o with
  | next t =>
    refine ⟨fun u hu => ?_, nofun, nofun⟩
    cases hu
    exact congrArg Host.Outcome.next (hamid t rfl)
  | fault f => simp [turnOf, mapNext]
  | refused r => simp [turnOf, mapNext]

end Sys2Proof.Machine

/-! PROOFS. The step by what comes first: a driven word, an answer, a wait, and the operations the orchestrator issues
(45_orchestrator.md R110 to R120). -/

namespace Sys2Proof.Machine

/-! ### A driven word (30_encoding.md R58, R60) -/

theorem runWord_of_decode {w : OpWord} {i : Instr} (h : decode w = .ok i) (s : State) : runWord w s = exec i s := by
  simp only [runWord, h]

/-- A table word that fits 36 bits decodes as its operation word does. -/
theorem decodeTableWord_eq_some {nbits w : Nat} (hw : w < 2 ^ 36) {i : Instr} :
    decodeTableWord nbits w = some i ↔ decode (BitVec.ofNat 36 (w % 2 ^ nbits)) = .ok i := by
  unfold decodeTableWord
  rw [if_pos ((Nat.mod_le _ _).trans_lt hw)]
  cases decode (BitVec.ofNat 36 (w % 2 ^ nbits)) <;> simp

theorem step_withFetchWord {s : State} (hwf : s.cfg.wf = true) (nbits w : Nat) :
    step (s.withFetchWord nbits w) = runWord (BitVec.ofNat 36 (w % 2 ^ nbits)) s :=
  step_op hwf rfl

/-- Settles O40: the word at the head is run, with the operation it decodes to, or as an illegal word. -/
theorem stepRunsTheDrivenInstruction : Obligations.StepRunsTheDrivenInstruction := by
  unfold Obligations.StepRunsTheDrivenInstruction
  refine fun s hwf => ⟨fun w rest hin => ?_, fun nbits w _ hw => ⟨fun i hi => ?_, fun hnone hp => ?_⟩⟩
  · rw [step_op hwf hin]
    exact ⟨fun i hi => runWord_of_decode hi _, fun hno hp => runWord_illegal hno hp, fun hno hp => runWord_halted hp (hno _)⟩
  · rw [step_withFetchWord hwf, runWord_of_decode ((decodeTableWord_eq_some hw).1 hi)]
  · rw [step_withFetchWord hwf]
    refine runWord_illegal (fun i hi => ?_) hp
    rw [(decodeTableWord_eq_some hw).2 hi] at hnone
    cases hnone

/-! ### The handshakes -/

/-- Settles O42: the agent's answer is taken, and `takeAnswer` enters the fault of the phase. -/
theorem frontEndErrorsEnterTheirFault : Obligations.FrontEndErrorsEnterTheirFault := by
  unfold Obligations.FrontEndErrorsEnterTheirFault
  refine fun s rest hwf => ⟨fun hp hin => ?_, fun hp hin => ?_, fun hp hm hin => ?_, fun hp hin => ?_⟩
  · exact step_answer (r := .configure) hwf (by simp [pendingRequest, hp]) hin
  · exact step_answer (r := .acquireReceive) hwf (by simp [pendingRequest, hp]) hin
  · exact step_answer (r := .acquireTransmit) hwf (by simp [pendingRequest, hp, hm]) hin
  · exact step_answer (r := .submitTransmit) hwf (by simp [pendingRequest, hp]) hin

/-- A phase that waits for nothing acts on the state with a `pass` taken. -/
theorem step_action {s : State} {ins : List Input} (hwf : s.cfg.wf = true) (hq : pendingRequest s = none)
    (hin : LeavesInputs s ins) : step s = phaseAction (s.withInputs ins) := by
  rw [step_quiet hwf hq hin.no_op, hin.dropPass]

/-- The iteration boundary (R118). -/
theorem phaseAction_checkStop {s : State} (hp : s.phase = .checkStop) :
    phaseAction s = .next (s.goTo (if s.stopFlag then .shutdown else .acqRx)) := by
  simp [phaseAction, hp]

/-- Settles O47: each answer with its phase change, and the two phases that act without one. -/
theorem handshakesMoveThePhase : Obligations.HandshakesMoveThePhase := by
  unfold Obligations.HandshakesMoveThePhase
  refine fun s rest hwf => ⟨fun hp hin => ?_, fun hp hm hin => ?_, fun hp hin => ?_, fun hp hin => ?_, fun hp hin => ?_,
    fun hp hin => ?_⟩
  · exact step_answer (r := .configure) hwf (by simp [pendingRequest, hp]) hin
  · exact step_answer (r := .acquireTransmit) hwf (by simp [pendingRequest, hp, hm]) hin
  · exact step_answer (r := .submitTransmit) hwf (by simp [pendingRequest, hp]) hin
  · rw [step_action hwf (by simp [pendingRequest, hp]) hin]
    exact phaseAction_checkStop (s := s.withInputs rest) hp
  · exact step_answer (r := .shutdown) hwf (by simp [pendingRequest, hp]) hin
  · rw [step_action hwf (pendingRequest_halted hp) hin, phaseAction_halted (by exact hp)]
    rfl

theorem takeReceiveBuffer_ok {xs : List Sample} {m : Memory Sample} {s : State} (hl : xs.length = s.cfg.rxBufLen)
    (hm : memWriteRange s.cfg.rxBufLen s.rxb 0 xs = .ok m) :
    takeReceiveBuffer xs s = .next ({ s with rxb := m }.goTo .decode) := by
  simp only [takeReceiveBuffer, if_pos hl, hm]

/-- Settles O43: the range write of all `RX_BUF_LEN` samples. -/
theorem receiveHandoverFillsTheBuffer : Obligations.ReceiveHandoverFillsTheBuffer := by
  unfold Obligations.ReceiveHandoverFillsTheBuffer
  intro s samples rest hwf hp hin hlen
  obtain ⟨m, hm, hload⟩ := memWriteRange_ok (m := s.rxb) (k := 0) (vs := samples) (cap := s.cfg.rxBufLen) (by omega)
  refine ⟨m, ?_, fun k hk => by rw [hload, if_pos (by omega), Nat.sub_zero]⟩
  rw [step_answer (r := .acquireReceive) hwf (by simp [pendingRequest, hp]) hin]
  exact takeReceiveBuffer_ok (s := s.withInputs rest) hlen hm

theorem takeHostAnswer_ok {bytes : List Byte} {m : Memory Byte} {s : State} (hl : bytes.length ≤ s.cfg.txMaxBytes)
    (hm : memWriteRange s.cfg.txMaxBytes s.jobb 0 bytes = .ok m) (sd : Bool) :
    takeHostAnswer bytes sd s = .next (if sd then { s with txN := bytes.length, jobb := m, midPhase := true }
      else afterHostRead { s with txN := bytes.length, jobb := m }) := by
  simp only [takeHostAnswer, if_pos hl, State.job, hm]
  split <;> rfl

/-- The second part of `HOST_READ` issues STOPREQ (R115). -/
theorem phaseAction_hostRead {s : State} (hp : s.phase = .hostRead) (hm : s.midPhase = true) :
    phaseAction s = .next (afterHostRead { s with stopFlag := true }) := by
  simp [phaseAction, hp, hm, issue, opStopreq]

/-- Settles O45: the answer taken, and for a shutdown request the STOPREQ of the step after. -/
theorem hostAnswerBecomesTheJob : Obligations.HostAnswerBecomesTheJob := by
  unfold Obligations.HostAnswerBecomesTheJob
  intro s bytes sd rest hwf hp hmid hin hlen
  obtain ⟨m, hm, hload⟩ := memWriteRange_ok (m := s.jobb) (k := 0) (vs := bytes) (cap := s.cfg.txMaxBytes) (by omega)
  have hstep := step_answer (r := .hostRead) hwf (by simp [pendingRequest, hp, hmid]) hin
  have htake := takeHostAnswer_ok (s := s.withInputs rest) hlen hm sd
  refine ⟨m, fun k => by simpa using hload k, ?_, ?_⟩
  · rintro rfl
    exact hstep.trans htake
  · rintro rfl
    refine ⟨hstep.trans htake, fun now later hleaves => ?_⟩
    refine (step_action (ins := later) (by exact hwf) (by simp [pendingRequest, hp]) (by exact hleaves)).trans ?_
    exact phaseAction_hostRead (by exact hp) rfl

/-! ### The waits (60_exceptions.md R137) -/

theorem step_stopreq {s : State} {rest : List Input} (hwf : s.cfg.wf = true) (hp : s.phase ≠ .halted)
    (hin : s.inputs = .op (encode .stopreq) :: rest) : step s = .next { s with inputs := rest, stopFlag := true } := by
  rw [step_op hwf hin, runWord_of_decode (decodeEncodeRoundTrip .stopreq)]
  exact (stopreqOnlySetsTheFlag (s.withInputs rest)).1 hp

theorem wait_eq_next_self {q : Request} {s : State} (h : q = .hostRead → s.cfg.hostNonblock = false) : wait q s = .next s := by
  unfold wait
  rw [if_neg]
  rintro ⟨hq, hnb⟩
  exact absurd ((h hq).symm.trans hnb) (by simp)

/-- Settles O48: the core waits on a request, which is no read of a host that must answer at once. -/
theorem waitsStayUntilAnswered : Obligations.WaitsStayUntilAnswered := by
  unfold Obligations.WaitsStayUntilAnswered
  intro s hwf hphase
  have hrun : s.phase ≠ .halted := by
    rintro hh
    simp [hh] at hphase
  obtain ⟨q, hq, hblock⟩ : ∃ q, pendingRequest s = some q ∧ (q = .hostRead → s.cfg.hostNonblock = false) := by
    obtain hp | hp | ⟨hp, hm, hnb⟩ | ⟨hp, hm⟩ | hp | hp := hphase <;> simp [pendingRequest, *]
  refine ⟨fun hin => ?_, fun rest hin => ?_, fun rest hin => step_stopreq hwf hrun hin⟩
  · rw [step_wait hwf hq (by simp [hin]) (by simp [hin]), State.dropPass_nil s hin, wait_eq_next_self hblock]
  · rw [step_wait hwf hq (by simp [hin]) (by simp [hin]), State.dropPass_pass s rest hin]
    exact wait_eq_next_self (by exact hblock)

/-! ### The operations the orchestrator issues (R112, R113, R115, R116) -/

theorem decodeStep_begin {s : State} (hm : s.midPhase = false) :
    decodeStep s = issue opRxbegin (fun t => { t with sidx := 0, midPhase := true }) s := by
  simp [decodeStep, hm]

theorem decodeStep_sample {s : State} {x : Sample} (hm : s.midPhase = true) (hi : s.sidx < s.cfg.rxBufLen)
    (hx : Memory.load s.rxb s.sidx = some x) :
    decodeStep s = issue (opRxsample x.i x.q) (fun t => { t with sidx := t.sidx + 1 }) s := by
  simp [decodeStep, hm, hi, memRead_eq_ok.2 ⟨hi, hx⟩]

theorem decodeStep_end {s : State} (hm : s.midPhase = true) (hi : s.cfg.rxBufLen ≤ s.sidx) :
    decodeStep s = .next (s.goTo .report) := by
  simp [decodeStep, hm, Nat.not_lt.2 hi]

theorem step_decode {s : State} {ins : List Input} (hwf : s.cfg.wf = true) (hin : LeavesInputs s ins) (hp : s.phase = .decode) :
    step s = decodeStep (s.withInputs ins) := by
  rw [step_action hwf (by simp [pendingRequest, hp]) hin]
  simp [phaseAction, hp]

/-- An operation that answers a next state when driven answers the same when issued, followed by `after` unless it faults. -/
theorem issue_of_perform {op : State → OpResult} (after : State → State) {s t : State} (hp : s.phase ≠ .halted)
    (h : perform op s = .next t) :
    (op s = .done t ∧ issue op after s = .next (after t)) ∨
    (∃ c u, op s = .raised c u ∧ t = faultEntry c u ∧ issue op after s = .next t) := by
  rw [perform_running hp] at h
  obtain ⟨u, hu, rfl⟩ | ⟨c, u, hu, rfl⟩ := issue_eq_next h
  · exact .inl ⟨hu, issue_done hu⟩
  · exact .inr ⟨c, u, hu, rfl, issue_raised hu⟩

section Issued

variable {s t : State} {ins : List Input} (hwf : s.cfg.wf = true) (hin : LeavesInputs s ins)

include hwf hin

theorem step_issues_rxbegin (hp : s.phase = .decode) (hm : s.midPhase = false) (h : exec .rxbegin (s.withInputs ins) = .next t) :
    step s = .next (if s.cycOpen = true then t else { t with sidx := 0, midPhase := true }) := by
  rw [step_decode hwf hin hp, decodeStep_begin (by exact hm)]
  obtain ⟨hdone, hissue⟩ | ⟨c, u, hraised, -, hissue⟩ :=
      issue_of_perform (fun t => { t with sidx := 0, midPhase := true }) (by simp [hp]) h
  · have hc : s.cycOpen = false := by
      by_contra hc
      cases (opRxbegin_open (by simpa using hc)).symm.trans hdone
    rw [hissue, hc]
    rfl
  · have hc : s.cycOpen = true := by
      by_contra hc
      cases (opRxbegin_closed (by simpa using hc)).symm.trans hraised
    rw [hissue, if_pos hc]

theorem step_issues_rxsample {x : Sample} (hp : s.phase = .decode) (hm : s.midPhase = true) (hi : s.sidx < s.cfg.rxBufLen)
    (hx : Memory.load s.rxb s.sidx = some x) (h : exec (.rxsample x.i x.q) (s.withInputs ins) = .next t) :
    step s = .next (if s.cycOpen = true then { t with sidx := s.sidx + 1 } else t) := by
  rw [step_decode hwf hin hp, decodeStep_sample (by exact hm) (by exact hi) (by exact hx)]
  obtain ⟨hdone, hissue⟩ | ⟨c, u, hraised, -, hissue⟩ :=
      issue_of_perform (fun t => { t with sidx := t.sidx + 1 }) (by simp [hp]) h
  · have hc : s.cycOpen = true := opRxsample_done_open (s := s.withInputs ins) hdone
    obtain ⟨⟨-, -, -, -, -, -, hsidx, -⟩, -⟩ := op_keeps (isOp_rxsample ..) hdone
    rw [hissue, if_pos hc, hsidx]
    rfl
  · have hc : s.cycOpen = false := (opRxsample_eq_raised (s := s.withInputs ins) hraised).1
    rw [hissue, hc]
    rfl

theorem step_issues_rxend (hp : s.phase = .report) (h : exec .rxend (s.withInputs ins) = .next t) :
    step s = .next (if s.cycOpen = true then { t with phase := .hostRead, midPhase := false } else t) := by
  have hact : step s = issue opRxend (fun t => t.goTo .hostRead) (s.withInputs ins) := by
    rw [step_action hwf (by simp [pendingRequest, hp]) hin]
    simp [phaseAction, hp]
  rw [hact]
  obtain ⟨hdone, hissue⟩ | ⟨c, u, hraised, -, hissue⟩ := issue_of_perform (fun t => t.goTo .hostRead) (by simp [hp]) h
  · have hc : s.cycOpen = true := (opRxend_eq_done (s := s.withInputs ins) hdone).1
    rw [hissue, if_pos hc]
    rfl
  · have hc : s.cycOpen = false := (opRxend_eq_raised (s := s.withInputs ins) hraised).1
    rw [hissue, hc]
    rfl

theorem step_issues_stopreq (hp : s.phase = .hostRead) (hm : s.midPhase = true)
    (h : exec .stopreq (s.withInputs ins) = .next t) :
    step s = .next { t with phase := if 0 < s.txN then .encode else .checkStop, midPhase := false } := by
  rw [step_action hwf (by simp [pendingRequest, hp, hm]) hin, phaseAction_hostRead (by exact hp) (by exact hm)]
  rw [(stopreqOnlySetsTheFlag _).1 (by simp [hp])] at h
  cases h
  rfl

/-- TXJOB leaves `ENCODE` by its own fault, or by the phase change after it. -/
theorem step_issues_txjob (hp : s.phase = .encode) (hm : s.midPhase = true) (h : exec .txjob (s.withInputs ins) = .next t) :
    (t.phase = .encode ∧ step s = .next (afterTxjob t)) ∨ (t.phase ≠ .encode ∧ step s = .next t) := by
  have hact : step s = issue opTxjob afterTxjob (s.withInputs ins) := by
    rw [step_action hwf (by simp [pendingRequest, hp, hm]) hin]
    simp [phaseAction, hp, hm]
  rw [hact]
  obtain ⟨hdone, hissue⟩ | ⟨c, u, hraised, rfl, hissue⟩ := issue_of_perform afterTxjob (by simp [hp]) h
  · exact .inl ⟨(op_keeps_phase isOp_txjob hdone).trans hp, hissue⟩
  · have hu : u.phase = .encode := by
      obtain ⟨-, rfl | ⟨-, rfl⟩⟩ := op_raised isOp_txjob hraised <;> exact hp
    exact .inr ⟨by simp [faultEntry_phase, hu], hissue⟩

end Issued

/-- Settles O46: each issued operation by its lemma above. -/
theorem orchestratorIssuesTheOperations : Obligations.OrchestratorIssuesTheOperations := by
  unfold Obligations.OrchestratorIssuesTheOperations
  intro s t ins hwf hin u
  refine ⟨step_issues_rxbegin hwf hin, fun x => step_issues_rxsample hwf hin, fun hp hm hi => ?_, step_issues_rxend hwf hin,
    step_issues_stopreq hwf hin, fun hp hm h ht => ?_, fun hp hm h ht => ?_⟩
  · rw [step_decode hwf hin hp, decodeStep_end (by exact hm) (by exact hi)]
    rfl
  · obtain ⟨-, hstep⟩ | ⟨hne, -⟩ := step_issues_txjob hwf hin hp hm h
    · exact hstep
    · exact absurd ht hne
  · obtain ⟨heq, -⟩ | ⟨-, hstep⟩ := step_issues_txjob hwf hin hp hm h
    · exact absurd heq ht
    · exact hstep

end Sys2Proof.Machine

/-! PROOFS. The decode pass: the orchestrator's steps against the direct drive (45_orchestrator.md R112). -/

namespace Sys2Proof.Machine

/-- The pass before the sample at index `k`: the orchestrator's two fields beside the decoder's state. -/
def State.atSample (k : Nat) (s : State) : State := { s with sidx := k, midPhase := true }

theorem isAside_atSample (k : Nat) : IsAside (State.atSample k) :=
  ⟨fun _ => true, fun _ => k, id, id, [], rfl, rfl⟩

/-- In a cycle RXSAMPLE completes where the invariant holds, and does the same without the orchestrator's two fields. -/
theorem opRxsample_atSample {s : State} {k : Nat} (hinv : Inv (s.atSample k)) (hc : s.cycOpen = true) (i q : BitVec 16) :
    ∃ t, opRxsample i q s = .done t ∧ opRxsample i q (s.atSample k) = .done (t.atSample k) := by
  have haside := opRxsample_aside (isAside_atSample k) s i q
  cases hs : opRxsample i q s with
  | done t => exact ⟨t, rfl, by rw [haside, hs]; rfl⟩
  | raised c u => exact absurd ((opRxsample_eq_raised hs).1.symm.trans hc) (by simp)
  | broken f => exact absurd (by rw [haside, hs]; rfl) (hinv.opRxsample_ne_broken i q f)

/-- Inputs that a pass of no taken input leaves as they are: none, or an answer to a later request (log entry 2). -/
def InputsStay (s : State) : Prop := s.inputs = [] ∨ ∃ a rest, s.inputs = .answer a :: rest

theorem leavesInputs_of_stay {s : State} (h : InputsStay s) : LeavesInputs s s.inputs := by
  obtain h | ⟨a, rest, h⟩ := h
  · exact .inl ⟨h, h⟩
  · exact .inr (.inr ⟨a, rest, h, h⟩)

theorem run_zero (s : State) : Host.Core.run core 0 s = .next s := core_run_zero core s

theorem run_succ {s t : State} (h : step s = .next t) (n : Nat) : Host.Core.run core (n + 1) s = Host.Core.run core n t :=
  core_run_succ core n s t h

/-- One sample of the pass: the direct drive's RXSAMPLE, with the index moved on. -/
theorem step_atSample {s : State} {k : Nat} {x : Sample} (hinv : Inv (s.atSample k)) (hp : s.phase = .decode)
    (hc : s.cycOpen = true) (hin : InputsStay s) (hk : k < s.cfg.rxBufLen) (hx : Memory.load s.rxb k = some x) :
    ∃ t, exec (rxOf x) s = .next t ∧ step (s.atSample k) = .next (t.atSample (k + 1)) ∧
      t.phase = .decode ∧ t.cycOpen = true ∧ InputsStay t ∧ t.cfg = s.cfg ∧ t.rxb = s.rxb := by
  obtain ⟨t, ht, ht'⟩ := opRxsample_atSample hinv hc x.i x.q
  obtain ⟨⟨hcfg, hphase, -, hrxb, -, -, -, hins⟩, -⟩ := op_keeps (isOp_rxsample ..) ht
  have hopen : t.cycOpen = true := by
    obtain ⟨m, pol, hdr, acc, n, r, pi, pf, oc, ov, ob, rfl, -⟩ := opRxsample_frame ht
    exact hc
  refine ⟨t, exec_rxsample_done (by simp [hp]) ht, ?_, hphase.trans hp, hopen, by rwa [InputsStay, hins], hcfg, hrxb⟩
  refine (step_decode hinv.cfgWf (leavesInputs_of_stay hin) hp).trans ?_
  rw [decodeStep_sample rfl (by exact hk) (by exact hx)]
  exact issue_done (by exact ht')

/-- The rest of a pass from index `k`: its samples driven directly, and the phase change at the end. -/
theorem run_atSample {xs : List Sample} {s : State} {k : Nat} (hinv : Inv (s.atSample k)) (hp : s.phase = .decode)
    (hc : s.cycOpen = true) (hin : InputsStay s) (hk : k + xs.length = s.cfg.rxBufLen)
    (hload : ∀ j, j < xs.length → Memory.load s.rxb (k + j) = xs[j]?) :
    ∃ t, execList (xs.map rxOf) s = .next t ∧ Host.Core.run core (xs.length + 1) (s.atSample k) =
      .next { t with phase := .report, midPhase := false, sidx := s.cfg.rxBufLen } := by
  induction xs generalizing s k with
  | nil =>
    refine ⟨s, rfl, ?_⟩
    have hend : step (s.atSample k) = .next ((s.atSample k).goTo .report) := by
      refine (step_decode hinv.cfgWf (leavesInputs_of_stay hin) hp).trans ?_
      exact decodeStep_end rfl (by exact hk.ge)
    refine (run_succ hend 0).trans ((run_zero _).trans ?_)
    rw [← hk]
    rfl
  | cons x xs ih =>
    rw [List.length_cons] at hk
    obtain ⟨t, hexec, hstep, hphase, hopen, hstay, hcfg, hrxb⟩ :=
      step_atSample hinv hp hc hin (by omega) (by simpa using hload 0 (by simp))
    obtain ⟨u, hu, hrun⟩ := ih (k := k + 1) (stepKeepsTheInvariant _ _ hinv hstep) hphase hopen hstay
      (by rw [hcfg]; omega) fun j hj => by
        rw [hrxb, show k + 1 + j = k + (j + 1) by omega]
        simpa using hload (j + 1) (by simpa using hj)
    refine ⟨u, by rw [List.map_cons, execList_cons_next hexec, hu], ?_⟩
    rw [← hcfg]
    exact (run_succ hstep (xs.length + 1)).trans hrun

/-- Settles O44: RXBEGIN's step, and then the pass from index 0. -/
theorem decodePassRunsTheBufferInOrder : Obligations.DecodePassRunsTheBufferInOrder := by
  unfold Obligations.DecodePassRunsTheBufferInOrder
  intro s samples hinv hp hm hc hin hlen hload
  have hbegin := exec_rxbegin_closed (s := s) (by simp [hp]) hc
  have hstep := step_issues_rxbegin hinv.cfgWf (leavesInputs_of_stay hin) hp hm hbegin
  rw [hc] at hstep
  obtain ⟨t, ht, hrun⟩ := run_atSample (xs := samples) (k := 0) (stepKeepsTheInvariant _ _ hinv hstep) hp rfl hin
    (by rw [Nat.zero_add]; exact hlen)
    fun j hj => by rw [Nat.zero_add]; exact hload j (hlen ▸ hj)
  refine ⟨t, by rw [execList_cons_next hbegin, ht], ?_⟩
  rw [← hlen] at hrun ⊢
  exact (run_succ hstep (samples.length + 1)).trans hrun

end Sys2Proof.Machine

/-! PROOFS. TXJOB: the frame's layout, the policy `FATAL`, and what it leaves unchanged (44_tx_encoder.md R102 to R106). -/

namespace Sys2Proof.Machine

/-! ### The layout (30_encoding.md R66) -/

theorem unitSymbols_getElem?_header {c : Config} {b : Byte} {k : Nat} (hk : k < 12) :
    (unitSymbols c b)[k]? = some (encBit c (c.hdrNormal.getLsbD (11 - k))) := by
  rw [unitSymbols, List.getElem?_map, List.getElem?_append_left (by simpa [bitsMsbFirst] using hk)]
  simp [bitsMsbFirst, hk]

/-- The coded part of a frame: three repetitions. -/
theorem codedSymbols_length (c : Config) (bytes : List Byte) :
    ((List.replicate Config.txRepeat (repetition c bytes)).flatten).length = 60 * bytes.length := by
  simp [repetition_length, Config.txRepeat]
  omega

theorem frame_getElem?_idle {c : Config} {bytes : List Byte} {p : Nat} (h1 : c.guardLen + 60 * bytes.length ≤ p)
    (h2 : p < c.txBufLen) : (frame c bytes)[p]? = some (idleSymbol c) := by
  have hcoded : (List.replicate c.guardLen (guardSymbol c) ++
      (List.replicate Config.txRepeat (repetition c bytes)).flatten).length = c.guardLen + 60 * bytes.length := by
    rw [List.length_append, List.length_replicate, codedSymbols_length]
  rw [frame, List.getElem?_append_right (by omega), hcoded, List.getElem?_replicate_of_lt]
  simp only [usedSlots, Config.txRepeat]
  omega

/-- Settles O31: the frame fills the whole buffer, and each clause is one of its parts. -/
theorem txjobWritesTheFrame : Obligations.TxjobWritesTheFrame := by
  unfold Obligations.TxjobWritesTheFrame
  intro s bytes hp hc hlen hjob hmax hfit
  have hread := memReadRange_of_load hmax hlen hjob
  obtain ⟨m, hexec, hload⟩ := exec_txjob_fits hp hc ((jobFits_iff ..).2 ⟨hmax, by omega⟩) hread
  have hunit {r j k : Nat} {b : Byte} (hr : r < 3) (hb : bytes[j]? = some b) (hk : k < 20) :
      Memory.load m (s.cfg.guardLen + 20 * (r * s.txN + j) + k) = (unitSymbols s.cfg b)[k]? := by
    have hj : j < s.txN := hlen ▸ (List.getElem?_eq_some_iff.1 hb).1
    have hrep : r * s.txN ≤ 2 * s.txN := Nat.mul_le_mul_right _ (by omega)
    rw [hload _ (by omega), ← hlen, frame_getElem?_unit hr hb hk]
  refine ⟨m, hexec, fun g hg => ?_, fun r j b hr hb => ⟨fun k hk => ?_, fun k hk => ?_⟩, fun p h1 h2 => ?_⟩
  · rw [hload g (by omega), frame_getElem?_guard hg]
  · rw [hunit hr hb (by omega), unitSymbols_getElem?_header hk]
  · rw [Nat.add_assoc, hunit hr hb (by omega), unitSymbols_getElem?_byte hk]
  · rw [hload p h2, frame_getElem?_idle (hlen ▸ h1) h2]

/-! ### The policy `FATAL`, and the frame -/

/-- Settles O33: fault entry with `TX_SIZE`, after `TX_RESULT` is set (log entry 11). -/
theorem txjobUnderFatalEntersTxSize : Obligations.TxjobUnderFatalEntersTxSize := by
  unfold Obligations.TxjobUnderFatalEntersTxSize
  intro s hp hc hq hover
  obtain ⟨hfirst, hlater, hgo, hstay, -⟩ := faultEntrySavesCodeAndPhaseOnce .txSize { s with txResult := .size }
  refine ⟨_, exec_txjob_fatal hp hc ((jobFits_eq_false_iff ..).2 hover) hq, hfirst, hlater, ?_, by simp⟩
  by_cases hs : s.phase = .shutdown
  · exact (hstay (.inl hs)).trans hs
  · exact hgo hs hp

/-- Settles O34: ignored, completed with the whole frame or none of it, or fault entry. -/
theorem txjobFrame : Obligations.TxjobFrame := by
  unfold Obligations.TxjobFrame
  intro s t h
  obtain ⟨hp, rfl⟩ | ⟨hp, hdone⟩ | ⟨hp, c, u, hraised, rfl⟩ := perform_eq_next h
  · simp
  · obtain ⟨hc, ⟨hj, bytes, m, hb, hm, rfl⟩ | ⟨hj, hq, rfl⟩⟩ := opTxjob_eq_done hdone
    · have hlen : (frame s.cfg bytes).length = s.cfg.txBufLen := frame_length (by rwa [(memReadRange_eq_ok.1 hb).1])
      refine ⟨rfl, fun p hpp => ?_, by simp [hp, hc], by simp [hp, hc], by simp⟩
      rw [memWriteRange_load hm, if_neg (by omega)]
    · exact ⟨rfl, by simp, by simp, by simp [hp, hc], by simp⟩
  · obtain ⟨hc, rfl, rfl⟩ | ⟨hc, hj, hq, rfl, rfl⟩ := opTxjob_eq_raised hraised
    · refine ⟨?_, by simp, by simp, by simp, by simp [hc]⟩
      rw [faultEntry_eq]
    · refine ⟨?_, by simp, by simp, by simp [hc, hp], by simp [hq, hj]⟩
      rw [faultEntry_eq]

end Sys2Proof.Machine

/-! PROOFS. Receiving data symbols: a header and a byte are decoded bit by bit, in either polarity (42_decoder.md section 3,
95_test_vectors.md P1). -/

namespace Sys2Proof.Machine

/-! ### The bits of a field -/

/-- The high bits of a field, shifted into an empty register. -/
theorem foldl_shiftIn_take {n : Nat} (v : BitVec n) {j : Nat} (hj : j ≤ n) :
    ((bitsMsbFirst v).take j).foldl shiftIn 0 = v >>> (n - j) := by
  apply BitVec.eq_of_toNat_eq
  rw [shiftIn_bits v 0 j hj, BitVec.toNat_ushiftRight, Nat.shiftRight_eq_div_pow]
  simp only [BitVec.ofNat_eq_ofNat, BitVec.toNat_ofNat, Nat.zero_mod, Nat.zero_mul, Nat.zero_add]
  exact Nat.mod_eq_of_lt ((Nat.div_le_self _ _).trans_lt v.isLt)

/-- All bits of a field, shifted into a register of its width, leave the field. -/
theorem foldl_shiftIn_bits {n : Nat} (v a : BitVec n) : (bitsMsbFirst v).foldl shiftIn a = v := by
  have hall : (bitsMsbFirst v).take n = bitsMsbFirst v := List.take_of_length_le (by simp [bitsMsbFirst])
  apply BitVec.eq_of_toNat_eq
  have := shiftIn_bits v a n le_rfl
  rw [hall] at this
  rw [this]
  simp [Nat.mod_eq_of_lt v.isLt]

theorem bitsMsbFirst_not {n : Nat} (v : BitVec n) : bitsMsbFirst (~~~v) = (bitsMsbFirst v).map (!·) := by
  unfold bitsMsbFirst
  rw [List.map_map]
  refine List.map_congr_left fun k hk => ?_
  have : k < n := List.mem_range.1 hk
  simp
  omega

/-- The last of the bits stands alone after the others. -/
theorem bitsMsbFirst_twelve (v : BitVec 12) : bitsMsbFirst v = (bitsMsbFirst v).take 11 ++ [v.getLsbD 0] := by
  simp [bitsMsbFirst, List.range_succ]

/-! ### The reference a data symbol leaves -/

/-- `REF` after the data symbol of `b`. -/
def dataRef (c : Config) (b : Bool) : BitVec 32 := BitVec.ofInt 32 (half (amp c (encBit c b)))

theorem refBetween_dataRef {c : Config} (hwf : c.wf = true) (b : Bool) : RefBetween c (dataRef c b).toInt := by
  rw [dataRef, toInt_ofInt_half_amp hwf]
  exact refBetween_half_amp hwf b

/-- A reference under which the search decides data symbols without error. -/
def RefSearches (c : Config) (r : Int) : Prop := -dataAmp c < r ∧ r ≤ dataAmp c

theorem RefBetween.searches {c : Config} {r : Int} (h : RefBetween c r) : RefSearches c r := ⟨h.1, h.2.le⟩

/-- What a polarity makes of a transmitted bit. -/
def Polarity.decoded : Polarity → Bool → Bool
  | .normal, b => b
  | .inverted, b => !b

theorem decideBit_encBit {c : Config} (hwf : c.wf = true) (b : Bool) (p : Polarity) {r : Int} (hr : RefBetween c r) :
    decideBit (amp c (encBit c b)) r p = p.decoded b := by
  cases p with
  | normal => exact decideBit_normal_encBit hwf b hr.1 hr.2.le
  | inverted => exact decideBit_inverted_encBit hwf b hr

/-! ### A decoder that receives -/

/-- An open cycle outside `HALTED`, under a well-formed configuration. -/
structure InCycle (s : State) : Prop where
  wf : s.cfg.wf = true
  running : s.phase ≠ .halted
  cycle : s.cycOpen = true

theorem exec_rxBit_searching {s : State} (h : InCycle s) (hm : s.decMode = .searchingHeader)
    (hr : RefSearches s.cfg s.ref.toInt) (b : Bool) :
    exec (rxBit s.cfg b) s = .next (searchBit b { s with ref := dataRef s.cfg b }) := by
  have hexec := exec_rxsample_searching (i := (encBit s.cfg b).i) (q := (encBit s.cfg b).q) h.running h.cycle hm
  have hbit : decideBit (amp s.cfg (encBit s.cfg b)) s.ref.toInt .normal = b := decideBit_normal_encBit h.wf b hr.1 hr.2
  change exec (rxBit s.cfg b) s = .next (searchBit (decideBit (amp s.cfg (encBit s.cfg b)) s.ref.toInt .normal) _) at hexec
  rw [hexec, hbit]
  rfl

/-- Bits that complete no header are shifted in (42_decoder.md R84). -/
theorem execList_search {bits : List Bool} {s : State} (h : InCycle s) (hm : s.decMode = .searchingHeader)
    (hr : RefSearches s.cfg s.ref.toInt)
    (hno : ∀ j, 1 ≤ j → j ≤ bits.length → headerMatch s.cfg ((bits.take j).foldl shiftIn s.hdrReg) = none) :
    ∃ r, RefSearches s.cfg r.toInt ∧
      execList (bits.map (rxBit s.cfg)) s = .next { s with ref := r, hdrReg := bits.foldl shiftIn s.hdrReg } := by
  induction bits generalizing s with
  | nil => exact ⟨s.ref, hr, rfl⟩
  | cons b bits ih =>
    have hexec := exec_rxBit_searching h hm hr b
    rw [searchBit_noMatch (by simpa using hno 1 le_rfl (by simp))] at hexec
    obtain ⟨r, hr', hrest⟩ := ih (s := { s with ref := dataRef s.cfg b, hdrReg := shiftIn s.hdrReg b })
      ⟨h.wf, h.running, h.cycle⟩ hm (refBetween_dataRef h.wf b).searches fun j h1 h2 => by
        simpa using hno (j + 1) (by omega) (by simpa using h2)
    exact ⟨r, hr', by rw [List.map_cons, execList_cons_next hexec]; exact hrest⟩

/-- The bits of a field that is a header constant, no window of which matches early, end in `COLLECTING_BYTE` (R84, R85). -/
theorem execList_header {s : State} {v : BitVec 12} {p : Polarity} (h : InCycle s) (hm : s.decMode = .searchingHeader)
    (hreg : s.hdrReg = 0) (hr : RefSearches s.cfg s.ref.toInt)
    (hno : ∀ j, 1 ≤ j → j < 12 → v >>> (12 - j) ≠ s.cfg.hdrNormal ∧ v >>> (12 - j) ≠ s.cfg.hdrInverted)
    (hmatch : headerMatch s.cfg v = some p) :
    ∃ r, RefBetween s.cfg r.toInt ∧ execList ((bitsMsbFirst v).map (rxBit s.cfg)) s =
      .next { s with decMode := .collectingByte, decPol := p, hdrReg := 0, bitCnt := 0, ref := r } := by
  have hlen : ((bitsMsbFirst v).take 11).length = 11 := by simp [bitsMsbFirst]
  obtain ⟨r, hr', hsearch⟩ := execList_search (bits := (bitsMsbFirst v).take 11) h hm hr fun j h1 h2 => by
    obtain ⟨hn, hi⟩ := hno j h1 (by omega)
    rw [List.take_take, min_eq_left (by omega), hreg, foldl_shiftIn_take v (by omega)]
    exact headerMatch_none hn hi
  have hlast := exec_rxBit_searching (s := { s with ref := r, hdrReg := ((bitsMsbFirst v).take 11).foldl shiftIn s.hdrReg })
    ⟨h.wf, h.running, h.cycle⟩ hm hr' (v.getLsbD 0)
  have hfull : shiftIn (((bitsMsbFirst v).take 11).foldl shiftIn s.hdrReg) (v.getLsbD 0) = v := by
    have hbits := foldl_shiftIn_bits v s.hdrReg
    rwa [bitsMsbFirst_twelve, List.foldl_append] at hbits
  rw [searchBit_match (p := p) (by simpa only [hfull] using hmatch)] at hlast
  refine ⟨dataRef s.cfg (v.getLsbD 0), refBetween_dataRef h.wf _, ?_⟩
  rw [bitsMsbFirst_twelve, List.map_append, execList_append _ _ _ _ hsearch]
  exact (execList_cons_next hlast).trans rfl

/-- The decoder inside a byte: reference, bits so far and their number. -/
def State.collected (s : State) (r : BitVec 32) (acc : Byte) (n : BitVec 4) : State :=
  { s with ref := r, byteAcc := acc, bitCnt := n }

theorem amp_encBit_eta (c : Config) (b : Bool) : amp c ⟨(encBit c b).i, (encBit c b).q⟩ = amp c (encBit c b) := rfl

theorem exec_rxBit_collecting {s : State} (h : InCycle s) (hm : s.decMode = .collectingByte)
    (hr : RefBetween s.cfg s.ref.toInt) (hcnt : s.bitCnt.toNat < 7) (b : Bool) : exec (rxBit s.cfg b) s =
      .next (s.collected (dataRef s.cfg b) (shiftIn s.byteAcc (s.decPol.decoded b)) (s.bitCnt + 1)) := by
  have hexec := exec_rxsample_collecting (i := (encBit s.cfg b).i) (q := (encBit s.cfg b).q) h.running h.cycle hm
    (collectBit_short hcnt)
  rw [amp_encBit_eta, decideBit_encBit h.wf b s.decPol hr] at hexec
  exact hexec

theorem exec_rxBit_eighth {s u : State} {b : Bool} (h : InCycle s) (hm : s.decMode = .collectingByte)
    (hr : RefBetween s.cfg s.ref.toInt) (hcnt : s.bitCnt.toNat = 7)
    (hu : pfeedInternal (shiftIn s.byteAcc (s.decPol.decoded b)) s = .ok u) : exec (rxBit s.cfg b) s =
      .next (s.byteCompleted (dataRef s.cfg b) (shiftIn s.byteAcc (s.decPol.decoded b)) u.preIdx u.preFound) :=
  exec_rxsample_eighth h.running h.cycle hm hcnt (by rw [amp_encBit_eta, decideBit_encBit h.wf b s.decPol hr]) hu

/-- Payload bits before the eighth are shifted in and counted (R86). -/
theorem execList_collect {bits : List Bool} {s : State} (h : InCycle s) (hm : s.decMode = .collectingByte)
    (hr : RefBetween s.cfg s.ref.toInt) (hcnt : s.bitCnt.toNat + bits.length ≤ 7) :
    ∃ r, RefBetween s.cfg r.toInt ∧ execList (bits.map (rxBit s.cfg)) s = .next (s.collected r
      ((bits.map s.decPol.decoded).foldl shiftIn s.byteAcc) (BitVec.ofNat 4 (s.bitCnt.toNat + bits.length))) := by
  induction bits generalizing s with
  | nil => exact ⟨s.ref, hr, by simp [execList, State.collected]⟩
  | cons b bits ih =>
    rw [List.length_cons] at hcnt
    have hexec := exec_rxBit_collecting h hm hr (by omega) b
    have hnext := bitCnt_succ_toNat (n := s.bitCnt) (by omega)
    obtain ⟨r, hr', hrest⟩ := ih
      (s := s.collected (dataRef s.cfg b) (shiftIn s.byteAcc (s.decPol.decoded b)) (s.bitCnt + 1))
      ⟨h.wf, h.running, h.cycle⟩ hm (refBetween_dataRef h.wf b) (by simp only [State.collected, hnext]; omega)
    refine ⟨r, hr', ?_⟩
    rw [List.map_cons, execList_cons_next hexec]
    refine hrest.trans ?_
    simp only [State.collected, hnext, List.map_cons, List.foldl_cons, List.length_cons]
    rw [Nat.add_assoc, Nat.add_comm 1]

/-- The matcher's registers can be fed again. -/
theorem pfeedInternal_feedable {b : Byte} {s t : State} (h : pfeedInternal b s = .ok t)
    (hpre : s.preFound = true ∨ s.preIdx.toNat < 2) : t.preFound = true ∨ t.preIdx.toNat < 2 := by
  obtain ⟨-, rfl⟩ | ⟨hf, -, rfl⟩ | ⟨-, -, rfl⟩ := pfeedInternal_eq_ok h
  · exact hpre
  · have hlt : s.preIdx.toNat < 2 := by simpa [hf] using hpre
    have hnext := preIdx_succ_toNat hlt
    simp only [decide_eq_true_eq, hnext, Config.preLen]
    omega
  · exact .inr (by simp)

/-- The bits up to the eighth complete the byte they make up (R86, R87). -/
theorem execList_complete {bits : List Bool} {s : State} {v : Byte} (h : InCycle s) (hm : s.decMode = .collectingByte)
    (hr : RefBetween s.cfg s.ref.toInt) (hcnt : s.bitCnt.toNat + bits.length = 8) (h7 : s.bitCnt.toNat ≤ 7)
    (hv : (bits.map s.decPol.decoded).foldl shiftIn s.byteAcc = v)
    (hpre : s.preFound = true ∨ s.preIdx.toNat < 2) :
    ∃ r pi pf, RefBetween s.cfg r.toInt ∧ (pf = true ∨ pi.toNat < 2) ∧
      execList (bits.map (rxBit s.cfg)) s = .next (s.byteCompleted r v pi pf) := by
  obtain rfl | ⟨init, b, rfl⟩ := List.eq_nil_or_concat bits
  · simp at hcnt
    omega
  · rw [List.concat_eq_append] at *
    simp only [List.length_append, List.length_cons, List.length_nil] at hcnt
    obtain ⟨r, hr', hinit⟩ := execList_collect (bits := init) h hm hr (by omega)
    have h7' : BitVec.ofNat 4 (s.bitCnt.toNat + init.length) = 7 := by
      rw [show s.bitCnt.toNat + init.length = 7 by omega]
      rfl
    rw [h7'] at hinit
    have hacc : shiftIn ((init.map s.decPol.decoded).foldl shiftIn s.byteAcc) (s.decPol.decoded b) = v := by
      rw [← hv, List.map_append, List.foldl_append]
      rfl
    generalize (init.map s.decPol.decoded).foldl shiftIn s.byteAcc = acc at hinit hacc
    subst hacc
    obtain ⟨u, hu⟩ := pfeedInternal_answers (b := shiftIn acc (s.decPol.decoded b)) (s := s.collected r acc 7) hpre
    have hlast := exec_rxBit_eighth (s := s.collected r acc 7) ⟨h.wf, h.running, h.cycle⟩ hm hr' rfl hu
    refine ⟨dataRef s.cfg b, u.preIdx, u.preFound, refBetween_dataRef h.wf b, pfeedInternal_feedable hu hpre, ?_⟩
    rw [List.map_append, execList_append _ _ _ _ hinit]
    exact (execList_cons_next hlast).trans rfl

end Sys2Proof.Machine

/-! PROOFS. The receiving vectors P1 and P5 and the round trip of R109 (95_test_vectors.md section 2, 44_tx_encoder.md R109). -/

namespace Sys2Proof.Machine

/-! ### One unit: a header and a byte -/

/-- A decoder at the start of a unit. -/
structure Receiving (s : State) : Prop extends InCycle s where
  searching : s.decMode = .searchingHeader
  hdrReg : s.hdrReg = 0
  ref : RefSearches s.cfg s.ref.toInt

/-- No window of the sent header matches before its last bit (92_eei_decisions.md D4, 42_decoder.md R91). -/
def NoEarlyMatch (c : Config) (v : BitVec 12) : Prop :=
  ∀ j, 1 ≤ j → j < 12 → v >>> (12 - j) ≠ c.hdrNormal ∧ v >>> (12 - j) ≠ c.hdrInverted

/-- The state that a unit leaves, from its header's polarity, its byte and what the matcher answers. -/
def State.unitReceived (s : State) (p : Polarity) (r : BitVec 32) (v : Byte) (pi : BitVec 2) (pf : Bool) : State :=
  { s with decPol := p, hdrReg := 0 }.byteCompleted r v pi pf

theorem execList_unit {s : State} {hdr : BitVec 12} {p : Polarity} {bits : List Bool} {v : Byte} (h : Receiving s)
    (hno : NoEarlyMatch s.cfg hdr) (hmatch : headerMatch s.cfg hdr = some p) (hlen : bits.length = 8)
    (hv : (bits.map p.decoded).foldl shiftIn s.byteAcc = v) (hpre : s.preFound = true ∨ s.preIdx.toNat < 2) :
    ∃ r pi pf, RefBetween s.cfg r.toInt ∧ (pf = true ∨ pi.toNat < 2) ∧
      execList ((bitsMsbFirst hdr).map (rxBit s.cfg) ++ bits.map (rxBit s.cfg)) s = .next (s.unitReceived p r v pi pf) := by
  obtain ⟨r, hr, hheader⟩ := execList_header h.toInCycle h.searching h.hdrReg h.ref hno hmatch
  obtain ⟨r', pi, pf, hr', hfeed, hbyte⟩ := execList_complete
    (s := { s with decMode := .collectingByte, decPol := p, hdrReg := 0, bitCnt := 0, ref := r })
    ⟨h.wf, h.running, h.cycle⟩ rfl hr (by simpa using hlen) (Nat.zero_le _) hv hpre
  exact ⟨r', pi, pf, hr', hfeed, (execList_append _ _ _ _ hheader).trans hbyte⟩

/-- What the unit's state holds, with room in `OUTB`. -/
theorem unitReceived_stored {s : State} {p : Polarity} {r : BitVec 32} {v : Byte} {pi : BitVec 2} {pf : Bool}
    (hroom : s.outCount < s.cfg.rxOutCap) :
    (s.unitReceived p r v pi pf).outCount = s.outCount + 1 ∧
    ∀ k, Memory.load (s.unitReceived p r v pi pf).outb k = if k = s.outCount then some v else Memory.load s.outb k := by
  simp only [State.unitReceived, State.byteCompleted, if_pos hroom]
  exact ⟨trivial, Memory.load_store _ _ _⟩

@[simp] theorem State.unitReceived_cfg (s : State) (p : Polarity) (r : BitVec 32) (v : Byte) (pi : BitVec 2) (pf : Bool) :
    (s.unitReceived p r v pi pf).cfg = s.cfg := rfl

/-- The decoder is again at the start of a unit. -/
theorem Receiving.unitReceived {s : State} (h : Receiving s) {p : Polarity} {r : BitVec 32} {v : Byte} {pi : BitVec 2} {pf : Bool}
    (hr : RefBetween s.cfg r.toInt) : Receiving (s.unitReceived p r v pi pf) :=
  ⟨⟨h.wf, h.running, h.cycle⟩, rfl, rfl, hr.searches⟩

/-! ### Either polarity (P1) -/

theorem rxHdrN_eq (c : Config) : rxHdrN c = (bitsMsbFirst (~~~c.hdrNormal)).map (rxBit c) := by
  rw [bitsMsbFirst_not, List.map_map]
  rfl

theorem rxByteN_eq (c : Config) (v : Byte) : rxByteN c v = (bitsMsbFirst (~~~v)).map (rxBit c) := by
  rw [bitsMsbFirst_not, List.map_map]
  rfl

/-- The complement of a bit string's complement, as the inverted decision makes it. -/
theorem foldl_shiftIn_inverted {n : Nat} (v a : BitVec n) :
    ((bitsMsbFirst (~~~v)).map Polarity.inverted.decoded).foldl shiftIn a = v := by
  have hinv : (bitsMsbFirst (~~~v)).map Polarity.inverted.decoded = bitsMsbFirst v := by
    rw [bitsMsbFirst_not, List.map_map]
    exact List.map_id'' (fun b => Bool.not_not b) _
  rw [hinv, foldl_shiftIn_bits]

theorem foldl_shiftIn_normal {n : Nat} (v a : BitVec n) :
    ((bitsMsbFirst v).map Polarity.normal.decoded).foldl shiftIn a = v := by
  have hid : (bitsMsbFirst v).map Polarity.normal.decoded = bitsMsbFirst v := List.map_id'' (fun _ => rfl) _
  rw [hid, foldl_shiftIn_bits]

theorem not_ne_self (v : BitVec 12) : ~~~v ≠ v := by
  intro h
  have hbit := congrArg (BitVec.getLsbD · 0) h
  simp at hbit

/-- Settles O20: one unit under the normal header, and one under its complement. -/
theorem headerAndByteAreDecoded : Obligations.HeaderAndByteAreDecoded := by
  unfold Obligations.HeaderAndByteAreDecoded
  intro s v hwf hp hc hm hreg hroom hpre hr1 hr2
  have hrec : Receiving s := ⟨⟨hwf, hp, hc⟩, hm, hreg, hr1, hr2⟩
  refine ⟨fun hno => ?_, fun hcompl hno => ?_⟩
  · obtain ⟨r, pi, pf, -, -, hexec⟩ := execList_unit (bits := bitsMsbFirst v) hrec hno (headerMatch_normal rfl)
      (by simp [bitsMsbFirst]) (foldl_shiftIn_normal ..) hpre
    obtain ⟨hcount, hload⟩ := unitReceived_stored hroom
    exact ⟨_, hexec, rfl, rfl, rfl, hcount, (hload _).trans (if_pos rfl)⟩
  · have hne : s.cfg.hdrInverted ≠ s.cfg.hdrNormal := hcompl ▸ not_ne_self _
    obtain ⟨r, pi, pf, -, -, hexec⟩ := execList_unit (bits := bitsMsbFirst (~~~v)) hrec hno (headerMatch_inverted hne rfl)
      (by simp [bitsMsbFirst]) (foldl_shiftIn_inverted ..) hpre
    obtain ⟨hcount, hload⟩ := unitReceived_stored hroom
    rw [rxHdrN_eq, rxByteN_eq, ← hcompl]
    exact ⟨_, hexec, rfl, rfl, rfl, hcount, (hload _).trans (if_pos rfl)⟩

/-! ### A byte across two cycles (P5) -/

/-- The state of a new cycle, with the heartbeat counter, the events and the free values that the last one left. -/
def State.nextCycle (s : State) (n : BitVec 32) (ev : List Event) (k : Nat) : State :=
  { s with
    idleCnt := n, events := ev, freeCtr := k
    cycOpen := true, preIdx := 0, preFound := false, outCount := 0, outOvf := false }

/-- RXEND and RXBEGIN between two samples restart the cycle's registers and leave the decoder's (R93). -/
theorem execList_boundary {s : State} (h : InCycle s) (hcap : s.outCount ≤ s.cfg.rxOutCap)
    (hfill : Memory.filled s.outb s.outCount) : ∃ n ev k, execList [.rxend, .rxbegin] s = .next (s.nextCycle n ev k) := by
  obtain ⟨n, ev, k, hend⟩ := exec_rxend_filled h.running h.cycle hcap hfill
  refine ⟨n, ev, k, ?_⟩
  rw [execList_cons_next hend, execList_cons_next (exec_rxbegin_closed (by exact h.running) rfl)]
  rfl

/-- The two halves of a byte on either side of a boundary (R93): the eighth bit completes it in the new cycle. -/
theorem execList_splitByte {s : State} (h : InCycle s) (hm : s.decMode = .collectingByte) (hpol : s.decPol = .normal)
    (hcnt : s.bitCnt = 0) (hr : RefBetween s.cfg s.ref.toInt) (hcap : s.outCount ≤ s.cfg.rxOutCap)
    (hfill : Memory.filled s.outb s.outCount) (v : Byte) :
    ∃ (w : State) (r : BitVec 32) (pi : BitVec 2) (pf : Bool), w.cfg = s.cfg ∧ w.outCount = 0 ∧
      execList ((rxByte s.cfg v).take 4 ++ [.rxend, .rxbegin] ++ (rxByte s.cfg v).drop 4) s =
        .next (w.byteCompleted r v pi pf) := by
  obtain ⟨r, hr', hhalf⟩ := execList_collect (bits := (bitsMsbFirst v).take 4) h hm hr (by simp [bitsMsbFirst, hcnt])
  have h4 : BitVec.ofNat 4 (s.bitCnt.toNat + ((bitsMsbFirst v).take 4).length) = 4 := by simp [bitsMsbFirst, hcnt]
  have hbyte : (((bitsMsbFirst v).drop 4).map s.decPol.decoded).foldl shiftIn
      ((((bitsMsbFirst v).take 4).map s.decPol.decoded).foldl shiftIn s.byteAcc) = v := by
    rw [← List.foldl_append, ← List.map_append, List.take_append_drop, hpol, foldl_shiftIn_normal]
  rw [h4] at hhalf
  generalize (((bitsMsbFirst v).take 4).map s.decPol.decoded).foldl shiftIn s.byteAcc = acc at hhalf hbyte
  obtain ⟨n, ev, k, hboundary⟩ := execList_boundary (s := s.collected r acc 4) ⟨h.wf, h.running, h.cycle⟩ hcap hfill
  obtain ⟨r', pi, pf, -, -, hrest⟩ := execList_complete (s := (s.collected r acc 4).nextCycle n ev k)
    (bits := (bitsMsbFirst v).drop 4) ⟨h.wf, h.running, rfl⟩ hm hr' (by simp [bitsMsbFirst, State.nextCycle, State.collected])
    (by simp [State.nextCycle, State.collected]) hbyte (.inr (by simp [State.nextCycle]))
  refine ⟨(s.collected r acc 4).nextCycle n ev k, r', pi, pf, rfl, rfl, ?_⟩
  rw [rxByte, ← List.map_take, ← List.map_drop, List.append_assoc, execList_append _ _ _ _ hhalf,
    execList_append _ _ _ _ hboundary]
  exact hrest

/-- Settles O21: the header opens the byte, whose halves stand on either side of the boundary. -/
theorem byteSplitAcrossCyclesCompletes : Obligations.ByteSplitAcrossCyclesCompletes := by
  unfold Obligations.ByteSplitAcrossCyclesCompletes
  intro s v hwf hp hc hm hreg hcap hfill hr1 hr2 hno
  obtain ⟨-, -, hroom, -⟩ := (config_wf_iff s.cfg).1 hwf
  obtain ⟨r, hr, hheader⟩ := execList_header ⟨hwf, hp, hc⟩ hm hreg ⟨hr1, hr2⟩ hno (headerMatch_normal rfl)
  obtain ⟨w, r', pi, pf, hcfg, hcount, hsplit⟩ := execList_splitByte
    (s := { s with decMode := .collectingByte, decPol := .normal, hdrReg := 0, bitCnt := 0, ref := r })
    ⟨hwf, hp, hc⟩ rfl rfl rfl hr hcap hfill v
  have hstore : w.outCount < w.cfg.rxOutCap := by rw [hcfg, hcount]; exact hroom
  refine ⟨w.byteCompleted r' v pi pf, ?_, rfl, ?_, ?_⟩
  · rw [List.append_assoc, List.append_assoc, ← List.append_assoc _ _ ((rxByte s.cfg v).drop 4)]
    exact (execList_append _ _ _ _ hheader).trans hsplit
  · exact (if_pos hstore).trans (by rw [hcount])
  · simp only [State.byteCompleted, if_pos hstore, ← hcount, Memory.load_store_same]

/-! ### The round trip (R109) -/

theorem unitSymbols_map_rxOf (c : Config) (b : Byte) : (unitSymbols c b).map rxOf =
    (bitsMsbFirst c.hdrNormal).map (rxBit c) ++ (bitsMsbFirst b).map (rxBit c) := by
  rw [unitSymbols, List.map_map, List.map_append]
  rfl

theorem repetition_cons (c : Config) (b : Byte) (bs : List Byte) :
    repetition c (b :: bs) = unitSymbols c b ++ repetition c bs := by
  simp [repetition]

/-- The repetitions of a job are the units of the job's bytes written over and over. -/
theorem replicate_repetition (c : Config) (bytes : List Byte) (n : Nat) :
    (List.replicate n (repetition c bytes)).flatten = repetition c (List.replicate n bytes).flatten := by
  induction n with
  | zero => rfl
  | succ n ih => simp only [List.replicate_succ, List.flatten_cons, repetition_append, ih]

/-- The units of a list of bytes, received: each byte is stored behind the ones before it. -/
theorem execList_repetition {bs : List Byte} {s : State} (h : Receiving s) (hno : NoEarlyMatch s.cfg s.cfg.hdrNormal)
    (hpre : s.preFound = true ∨ s.preIdx.toNat < 2) (hroom : s.outCount + bs.length ≤ s.cfg.rxOutCap) :
    ∃ u, execList ((repetition s.cfg bs).map rxOf) s = .next u ∧ u.outCount = s.outCount + bs.length ∧
      (∀ k, k < s.outCount → Memory.load u.outb k = Memory.load s.outb k) ∧
      ∀ j, j < bs.length → Memory.load u.outb (s.outCount + j) = bs[j]? := by
  induction bs generalizing s with
  | nil => exact ⟨s, rfl, rfl, fun _ _ => rfl, nofun⟩
  | cons b bs ih =>
    rw [List.length_cons] at hroom
    obtain ⟨r, pi, pf, hr, hfeed, hunit⟩ := execList_unit (bits := bitsMsbFirst b) h hno (headerMatch_normal rfl)
      (by simp [bitsMsbFirst]) (foldl_shiftIn_normal b _) hpre
    obtain ⟨hcount, hload⟩ := unitReceived_stored (s := s) (p := .normal) (r := r) (v := b) (pi := pi) (pf := pf) (by omega)
    obtain ⟨u, hrest, hucount, hbelow, hbytes⟩ := ih (h.unitReceived (p := .normal) (v := b) (pi := pi) (pf := pf) hr) hno hfeed
      (by rw [hcount, State.unitReceived_cfg]; omega)
    rw [hcount] at hucount hbelow hbytes
    refine ⟨u, ?_, by rw [hucount, List.length_cons]; omega, fun k hk => ?_, fun j hj => ?_⟩
    · rw [repetition_cons, List.map_append, unitSymbols_map_rxOf, execList_append _ _ _ _ hunit]
      exact hrest
    · rw [hbelow k (by omega), hload, if_neg (by omega)]
    · cases j with
      | zero => rw [Nat.add_zero, hbelow _ (by omega), hload, if_pos rfl, List.getElem?_cons_zero]
      | succ j =>
        rw [List.getElem?_cons_succ, ← hbytes j (by simpa using hj)]
        congr 1
        omega

/-- The coded slots of a frame, from the first after the guard. -/
theorem frame_getElem?_coded {c : Config} {bytes : List Byte} {k : Nat} (hk : k < 60 * bytes.length) :
    (frame c bytes)[c.guardLen + k]? = (List.replicate Config.txRepeat (repetition c bytes)).flatten[k]? := by
  rw [frame, List.append_assoc, List.getElem?_append_right (by simp), List.length_replicate, Nat.add_sub_cancel_left,
    List.getElem?_append_left (by rwa [codedSymbols_length])]

/-- Settles O35: TXJOB's coded slots are the units of the job three times over, and the decoder receives each unit. -/
theorem transmitReceiveRoundTrip : Obligations.TransmitReceiveRoundTrip := by
  unfold Obligations.TransmitReceiveRoundTrip
  intro s bytes hwf hp hc hm hreg href hlen hjob hmax hfit hcap hno
  have hread := memReadRange_of_load hmax hlen hjob
  obtain ⟨m, hexec, hload⟩ := exec_txjob_fits hp hc ((jobFits_iff ..).2 ⟨hmax, by omega⟩) hread
  have hsearch : RefSearches s.cfg s.ref.toInt := by
    have hpos := dataAmp_pos hwf
    rw [href]
    exact ⟨by simpa using hpos, by simpa using hpos.le⟩
  have hbytes : ((List.replicate Config.txRepeat bytes).flatten).length = 3 * s.txN := by
    simp [Config.txRepeat, hlen]
    omega
  have hbegin := exec_rxbegin_closed (s := { s with txb := m, txResult := .ok }) hp hc
  obtain ⟨u, hunits, hcount, -, hout⟩ := execList_repetition (bs := (List.replicate Config.txRepeat bytes).flatten)
    (s := { s with
      txb := m, txResult := .ok
      cycOpen := true, preIdx := 0, preFound := false, outCount := 0, outOvf := false })
    ⟨⟨hwf, hp, rfl⟩, hm, hreg, hsearch⟩ hno (.inr (by simp))
    (by rw [hbytes, Nat.zero_add]; exact hcap)
  refine ⟨_, u, (List.replicate Config.txRepeat (repetition s.cfg bytes)).flatten, hexec, ?_, fun k hk => ?_, ?_, ?_,
    fun k hk => ?_⟩
  · rw [codedSymbols_length, hlen]
  · rw [← frame_getElem?_coded (by rwa [hlen])]
    exact hload _ (by omega)
  · rw [replicate_repetition, execList_cons_next hbegin]
    exact hunits
  · rw [hcount, hbytes]
    exact Nat.zero_add _
  · have hN : 0 < s.txN := by omega
    have hmod : k % s.txN < bytes.length := by rw [hlen]; exact Nat.mod_lt _ hN
    have hdiv : k / s.txN < Config.txRepeat := (Nat.div_lt_iff_lt_mul hN).2 hk
    have hget := replicate_flatten_get bytes Config.txRepeat (k / s.txN) (k % s.txN) hdiv hmod
    rw [hlen, Nat.mul_comm, Nat.div_add_mod] at hget
    rw [← hget, ← hout k (by rw [hbytes]; exact hk)]
    exact congrArg _ (Nat.zero_add k).symm

end Sys2Proof.Machine

/-! PROOFS. The status port: every field of the map at its bits (10_state.md R39). -/

namespace Sys2Proof.Machine

/-! ### The fields of the `STATUS` word -/

/-- The one-bit fields. -/
theorem statusWord_bits (s : State) :
    (statusWord s).getLsbD 0 = s.decMode.bit ∧ (statusWord s).getLsbD 1 = s.decPol.bit ∧
    (statusWord s).getLsbD 2 = s.preFound ∧ (statusWord s).getLsbD 3 = s.outOvf ∧ (statusWord s).getLsbD 4 = s.stopFlag ∧
    (statusWord s).getLsbD 5 = s.cycOpen ∧ (statusWord s).getLsbD 6 = decide (s.phase = .halted) ∧
    (statusWord s).getLsbD 7 = false := by
  unfold statusWord
  simp only [BitVec.getLsbD_append]
  simp

/-- The wider fields. -/
theorem statusWord_fields (s : State) :
    (statusWord s).extractLsb' 8 4 = s.faultCode.code ∧ (statusWord s).extractLsb' 12 2 = s.txResult.code ∧
    (statusWord s).extractLsb' 14 2 = 0 ∧ (statusWord s).extractLsb' 16 4 = s.faultPhase.code ∧
    (statusWord s).extractLsb' 20 4 = s.phase.code ∧ (statusWord s).extractLsb' 24 8 = 0 := by
  unfold statusWord
  simp (disch := decide) only [BitVec.extractLsb'_append_eq_of_le, Nat.reduceSub, BitVec.extractLsb'_append_eq_right,
    BitVec.extractLsb'_eq_self, and_self]

/-! ### The numbers of the values (10_state.md R20, R21, R33, R34, 60_exceptions.md R124) -/

theorem decMode_bit_eq_true (m : DecMode) : m.bit = true ↔ m = .collectingByte := by cases m <;> decide

theorem polarity_bit_eq_true (p : Polarity) : p.bit = true ↔ p = .inverted := by cases p <;> decide

theorem faultCode_numbers (a : FaultCode) : ∀ x ∈ [(FaultCode.none, 0), (.feConfig, 1), (.feRx, 2), (.feTx, 3), (.txSize, 4),
    (.seqErr, 5), (.badOp, 6)], (a = x.1 ↔ a.code.toNat = x.2) := by
  cases a <;> decide

theorem txResult_numbers (a : TxResult) :
    ∀ x ∈ [(TxResult.none, 0), (.ok, 1), (.size, 2)], (a = x.1 ↔ a.code.toNat = x.2) := by
  cases a <;> decide

theorem phase_numbers (a : Phase) : ∀ x ∈ [(Phase.boot, 0), (.acqRx, 1), (.decode, 2), (.report, 3), (.hostRead, 4),
    (.encode, 5), (.submitTx, 6), (.checkStop, 7), (.shutdown, 8), (.halted, 9)], (a = x.1 ↔ a.code.toNat = x.2) := by
  cases a <;> decide

/-! ### The other words -/

/-- A field below hardwired zeros. -/
theorem zero_append_toNat {n m : Nat} (x : BitVec m) : ((0 : BitVec n) ++ x).toNat = x.toNat := by
  rw [toNat_append_eq, BitVec.ofNat_eq_ofNat, BitVec.toNat_zero, Nat.mul_zero, Nat.add_zero]

theorem countWord_toNat {n : Nat} (h : n < 2 ^ 32) : (countWord n).toNat = n := by
  rw [countWord, if_pos h, BitVec.toNat_ofNat, Nat.mod_eq_of_lt h]

/-- The numbers that name no word read 0. -/
theorem rd_above {n : BitVec 8} (hn : 9 ≤ n.toNat) (s : State) : rd n s = 0 := by
  unfold rd
  split
  case h_10 => rfl
  all_goals omega

/-- Settles O54: each word of the port by its own lemma. -/
theorem statusPortReadsTheMap : Obligations.StatusPortReadsTheMap := by
  unfold Obligations.StatusPortReadsTheMap
  intro s
  obtain ⟨b0, b1, b2, b3, b4, b5, b6, b7⟩ := statusWord_bits s
  obtain ⟨hcode, hresult, hgap, hfphase, hphase, htop⟩ := statusWord_fields s
  have h0 : rd 0 s = statusWord s := rfl
  rw [h0, b0, b1, b6, hcode, hresult, hfphase, hphase, decMode_bit_eq_true, polarity_bit_eq_true, decide_eq_true_iff]
  refine ⟨Iff.rfl, Iff.rfl, b2, b3, b4, b5, Iff.rfl, b7, fun c n => faultCode_numbers s.faultCode (c, n),
    fun r n => txResult_numbers s.txResult (r, n), hgap,
    fun p n h => ⟨phase_numbers s.faultPhase (p, n) h, phase_numbers s.phase (p, n) h⟩, htop, ?_, ?_, rfl, ?_,
    countWord_toNat, rfl, countWord_toNat, countWord_toNat, fun n hn => rd_above hn s⟩
  · exact zero_append_toNat s.hdrReg
  · exact (toNat_append_eq _ _).trans (by rw [zero_append_toNat])
  · exact zero_append_toNat s.preIdx

end Sys2Proof.Machine
